-- ==== Sys2Proof/Word.lean ====
section
/-! DEFINITION. The word types of the engine (00_scope.md rules R6, R9, R10). -/

namespace Sys2Proof

/-- One byte of a serialised packet (20_memory.md rule R47). -/
abbrev Byte := BitVec 8

/-- An operand word, `W = 64` bits: a `Poly64`, an Element, an Exponent or an index (rules R6, R10, R61). -/
abbrev Word := BitVec 64

/-- A `Wide128`: the width of the unreduced product and of a result R (rules R6, R10, R64). -/
abbrev Wide := BitVec 128

/-- A polynomial over GF(2): a natural number whose bit i is the coefficient of x^i (rules R9, R11). -/
abbrev Poly := Nat

end Sys2Proof
end

