-- ==== Sys2Proof/Syntax.lean ====
section
/-! DEFINITION. The commands of `GFENG-1` as syntax (30_encoding.md rules R60 to R67), and the command packet. -/

namespace Sys2Proof

/-- The strategy hint of `CREATE` (rule R62: `STRAT` 0, 1, 2; the value 3 is reserved and has no hint). -/
inductive Hint where
  | auto
  | direct
  | table
deriving DecidableEq, Repr, Inhabited

/-- The 18 commands, one constructor per row of the opcode table, the operands in the order of the source's
signatures (rules R66, R67, R72). `m` is `zext(MDEG)`, a natural number (rule R63). A word a row does not use is
not part of the command (rule R69). -/
inductive Instr where
  /-- `PADD a, b` (40_ring.md rule R101). -/
  | padd (a b : Word)
  /-- `PCLMUL a, b` (rule R103). -/
  | pclmul (a b : Word)
  /-- `PREDUCE wide, modulus, m` (rule R105); `wide = {B, A}`. -/
  | preduce (wide : Wide) (modulus : Word) (m : Nat)
  /-- `PMODMUL a, b, modulus, m` (rule R107). -/
  | pmodmul (a b modulus : Word) (m : Nat)
  /-- `PMODEXP base, exponent, modulus, m` (rule R109). -/
  | pmodexp (base exponent modulus : Word) (m : Nat)
  /-- `ISIRRED poly, m` (41_checker.md rule R121). -/
  | isirred (poly : Word) (m : Nat)
  /-- `SELCANON m` (rule R124). -/
  | selcanon (m : Nat)
  /-- `CREATE m, modulus or -, hint, FB` (43_context.md rule R171); `modulus` is `none` when `HASMOD = 0`. -/
  | create (m : Nat) (modulus : Option Word) (hint : Hint) (fb : Bool)
  /-- `FINDGEN` (42_table.md rule R149). -/
  | findgen
  /-- `RDALOG i` (rule R150). -/
  | rdalog (i : Word)
  /-- `RDLOG a` (rule R151). -/
  | rdlog (a : Word)
  /-- `FADD a, b` (43_context.md rule R173). -/
  | fadd (a b : Word)
  /-- `FMUL a, b` (rule R175). -/
  | fmul (a b : Word)
  /-- `FDIV a, b`: dividend, divisor (rule R177). -/
  | fdiv (a b : Word)
  /-- `FINV a` (rule R179). -/
  | finv (a : Word)
  /-- `CARD` (rule R180). -/
  | card
  /-- `CHAR` (rule R181). -/
  | char
  /-- `DEG` (rule R182). -/
  | deg
deriving DecidableEq, Repr

/-- A command packet: header `W0` and the operand words A, B, C, D in `W1` to `W4` (rules R60, R61). -/
structure Packet where
  w0 : Word
  w1 : Word
  w2 : Word
  w3 : Word
  w4 : Word
deriving DecidableEq, Repr

end Sys2Proof
end

