-- ==== Sys2Proof/WellFormed.lean ====
section
/-! DEFINITION. Which commands can be written as a packet. The operand words carry their width in their type;
the one field that does not is the degree: "`m` may be any number 0 to 127; a larger one cannot be encoded"
(30_encoding.md rules R62, R72). -/

namespace Sys2Proof

/-- `m` fits the 7-bit field `MDEG` (rule R62). -/
def degreeEncodable (m : Nat) : Bool := decide (m < 128)

/-- The command can be encoded: its degree, where it has one, fits `MDEG`. A degree of 0 or of 64 to 127 is
encodable; the command itself answers `DegreeOutOfRange` to it (rule R68). -/
def Instr.wellFormed : Instr → Bool
  | .padd _ _ => true
  | .pclmul _ _ => true
  | .preduce _ _ m => degreeEncodable m
  | .pmodmul _ _ _ m => degreeEncodable m
  | .pmodexp _ _ _ m => degreeEncodable m
  | .isirred _ m => degreeEncodable m
  | .selcanon m => degreeEncodable m
  | .create m _ _ _ => degreeEncodable m
  | .findgen => true
  | .rdalog _ => true
  | .rdlog _ => true
  | .fadd _ _ => true
  | .fmul _ _ => true
  | .fdiv _ _ => true
  | .finv _ => true
  | .card => true
  | .char => true
  | .deg => true

end Sys2Proof
end

