-- ==== Sys2Proof/Decode.lean ====
section
/-! DEFINITION. The decoder (30_encoding.md rules R62 to R74), total on every packet and on every list of bytes,
and the encoder written from the same table. -/

namespace Sys2Proof

/-! ### The opcode table (rule R66) -/

/-- The rows of the opcode table. -/
inductive Op where
  | padd | pclmul | preduce | pmodmul | pmodexp
  | isirred | selcanon
  | create | findgen | rdalog | rdlog
  | fadd | fmul | fdiv | finv
  | card | char | deg
deriving DecidableEq, Repr

/-- The 18 rows in the table's order (rule R66). -/
def Op.all : List Op :=
  [.padd, .pclmul, .preduce, .pmodmul, .pmodexp, .isirred, .selcanon, .create, .findgen, .rdalog, .rdlog,
   .fadd, .fmul, .fdiv, .finv, .card, .char, .deg]

/-- The column OPC (rule R66). -/
def Op.opcode : Op → BitVec 8
  | .padd => 0x10#8
  | .pclmul => 0x11#8
  | .preduce => 0x12#8
  | .pmodmul => 0x13#8
  | .pmodexp => 0x14#8
  | .isirred => 0x20#8
  | .selcanon => 0x21#8
  | .create => 0x30#8
  | .findgen => 0x31#8
  | .rdalog => 0x32#8
  | .rdlog => 0x33#8
  | .fadd => 0x40#8
  | .fmul => 0x41#8
  | .fdiv => 0x42#8
  | .finv => 0x43#8
  | .card => 0x50#8
  | .char => 0x51#8
  | .deg => 0x52#8

/-- The column mask over `W0` (rule R66): bits outside the mask are the row's fields. -/
def Op.mask : Op → Word
  | .padd => 0xFFFFFFFFFFFFFFFF#64
  | .pclmul => 0xFFFFFFFFFFFFFFFF#64
  | .preduce => 0xFFFFFFFFFFFF80FF#64
  | .pmodmul => 0xFFFFFFFFFFFF80FF#64
  | .pmodexp => 0xFFFFFFFFFFFF80FF#64
  | .isirred => 0xFFFFFFFFFFFF80FF#64
  | .selcanon => 0xFFFFFFFFFFFF80FF#64
  | .create => 0xFFFFFFFFFFF080FF#64
  | .findgen => 0xFFFFFFFFFFFFFFFF#64
  | .rdalog => 0xFFFFFFFFFFFFFFFF#64
  | .rdlog => 0xFFFFFFFFFFFFFFFF#64
  | .fadd => 0xFFFFFFFFFFFFFFFF#64
  | .fmul => 0xFFFFFFFFFFFFFFFF#64
  | .fdiv => 0xFFFFFFFFFFFFFFFF#64
  | .finv => 0xFFFFFFFFFFFFFFFF#64
  | .card => 0xFFFFFFFFFFFFFFFF#64
  | .char => 0xFFFFFFFFFFFFFFFF#64
  | .deg => 0xFFFFFFFFFFFFFFFF#64

/-- The column match over `W0` (rule R66). -/
def Op.pattern : Op → Word
  | .padd => 0x0000000000000010#64
  | .pclmul => 0x0000000000000011#64
  | .preduce => 0x0000000000000012#64
  | .pmodmul => 0x0000000000000013#64
  | .pmodexp => 0x0000000000000014#64
  | .isirred => 0x0000000000000020#64
  | .selcanon => 0x0000000000000021#64
  | .create => 0x0000000000000030#64
  | .findgen => 0x0000000000000031#64
  | .rdalog => 0x0000000000000032#64
  | .rdlog => 0x0000000000000033#64
  | .fadd => 0x0000000000000040#64
  | .fmul => 0x0000000000000041#64
  | .fdiv => 0x0000000000000042#64
  | .finv => 0x0000000000000043#64
  | .card => 0x0000000000000050#64
  | .char => 0x0000000000000051#64
  | .deg => 0x0000000000000052#64

/-- A header selects the row when `h and mask = match` (rule R66). -/
def Op.selects (h : Word) (o : Op) : Bool := h &&& o.mask == o.pattern

/-- The rows rule R67 gives the field `MDEG`. -/
def Op.usesDegree : Op → Bool
  | .preduce | .pmodmul | .pmodexp | .isirred | .selcanon | .create => true
  | .padd | .pclmul | .findgen | .rdalog | .rdlog | .fadd | .fmul | .fdiv | .finv | .card | .char | .deg => false

/-! ### Header fields (rule R62) and operand assembly (rule R63) -/

/-- `OPC`, bits 7:0. -/
def Packet.opc (p : Packet) : BitVec 8 := p.w0.extractLsb' 0 8

/-- `MDEG`, bits 14:8. -/
def Packet.mdeg (p : Packet) : BitVec 7 := p.w0.extractLsb' 8 7

/-- The reserved bit 15. -/
def Packet.reserved15 (p : Packet) : BitVec 1 := p.w0.extractLsb' 15 1

/-- `STRAT`, bits 17:16. -/
def Packet.strat (p : Packet) : BitVec 2 := p.w0.extractLsb' 16 2

/-- `HASMOD`, bit 18. -/
def Packet.hasmod (p : Packet) : BitVec 1 := p.w0.extractLsb' 18 1

/-- `FB`, bit 19. -/
def Packet.fb (p : Packet) : BitVec 1 := p.w0.extractLsb' 19 1

/-- The reserved bits 63:20. -/
def Packet.reservedHigh (p : Packet) : BitVec 44 := p.w0.extractLsb' 20 44

/-- `m = zext(MDEG)`, a natural number (rule R63). -/
def Packet.degree (p : Packet) : Nat := p.mdeg.toNat

/-- `wide = {B, A}` (rule R63). -/
def Packet.wide (p : Packet) : Wide := p.w2 ++ p.w1

/-- The hint a `STRAT` value stands for; 3 is reserved (rule R62). -/
def Hint.ofBits (b : BitVec 2) : Option Hint :=
  if b = 0#2 then some .auto else if b = 1#2 then some .direct else if b = 2#2 then some .table else none

/-- The `STRAT` value of a hint (rule R62). -/
def Hint.toBits : Hint → BitVec 2
  | .auto => 0#2
  | .direct => 1#2
  | .table => 2#2

/-! ### Decoding (rule R74) -/

/-- Why a packet is no command. The engine answers every one of them with the one status `IllegalCommand`
(rule R68); the names follow that rule's list (a) to (e), DESIGN CHOICE (log 13). `truncated` is said of a
list of bytes shorter than a packet, which is no packet (log 16). -/
inductive DecodeError where
  /-- fewer than 40 bytes -/
  | truncated
  /-- (a) `OPC` is not one of the 18 values -/
  | unknownOpcode
  /-- (b) a reserved header bit is 1 -/
  | reservedBit
  /-- (c) `MDEG` is not 0 in a command that does not use it -/
  | degreeNotUsed
  /-- (d) `STRAT`, `HASMOD` or `FB` is not 0 outside `CREATE` -/
  | createFieldNotUsed
  /-- (e) `STRAT = 3` in `CREATE` -/
  | reservedStrategy
deriving DecidableEq, Repr

/-- The name for a header that no row matches: the first of rule R68 (a) to (d) that holds. -/
def illegalReason (p : Packet) : DecodeError :=
  match Op.all.find? (fun o => p.opc == o.opcode) with
  | none => .unknownOpcode
  | some o =>
    if p.reserved15 ≠ 0#1 ∨ p.reservedHigh ≠ 0#44 then .reservedBit
    else if o.usesDegree = false ∧ p.mdeg ≠ 0#7 then .degreeNotUsed
    else .createFieldNotUsed

/-- `CREATE`'s fields: `STRAT = 3` is illegal (rule R68 (e)), `A` is the modulus when `HASMOD = 1` and is ignored
when `HASMOD = 0` (rule R69). -/
def readCreate (p : Packet) : Except DecodeError Instr :=
  match Hint.ofBits p.strat with
  | none => .error .reservedStrategy
  | some hint => .ok (.create p.degree (if p.hasmod = 1#1 then some p.w1 else none) hint (p.fb == 1#1))

/-- The command of a packet whose header selects row `o` (rules R63, R67); words the row does not name are
dropped (rule R69). -/
def Op.read (p : Packet) : Op → Except DecodeError Instr
  | .padd => .ok (.padd p.w1 p.w2)
  | .pclmul => .ok (.pclmul p.w1 p.w2)
  | .preduce => .ok (.preduce p.wide p.w3 p.degree)
  | .pmodmul => .ok (.pmodmul p.w1 p.w2 p.w3 p.degree)
  | .pmodexp => .ok (.pmodexp p.w1 p.w2 p.w3 p.degree)
  | .isirred => .ok (.isirred p.w1 p.degree)
  | .selcanon => .ok (.selcanon p.degree)
  | .create => readCreate p
  | .findgen => .ok .findgen
  | .rdalog => .ok (.rdalog p.w1)
  | .rdlog => .ok (.rdlog p.w1)
  | .fadd => .ok (.fadd p.w1 p.w2)
  | .fmul => .ok (.fmul p.w1 p.w2)
  | .fdiv => .ok (.fdiv p.w1 p.w2)
  | .finv => .ok (.finv p.w1)
  | .card => .ok .card
  | .char => .ok .char
  | .deg => .ok .deg

/-- The row a header selects, if any (rule R74: at most one can match). -/
def findRow (h : Word) : Option Op := Op.all.find? (Op.selects h)

/-- Rule R74: find the row; if none, illegal; `CREATE` with `STRAT = 3` is illegal; else the command. Decode
reads no architectural state. -/
def decode (p : Packet) : Except DecodeError Instr :=
  match findRow p.w0 with
  | none => .error (illegalReason p)
  | some o => o.read p

/-! ### A packet as one number and as bytes (20_memory.md rule R47) -/

/-- The packet of the 320-bit value `{W4, W3, W2, W1, W0}`; bits above it are dropped. -/
def Packet.ofNat (v : Nat) : Packet where
  w0 := BitVec.ofNat 64 v
  w1 := BitVec.ofNat 64 (v >>> 64)
  w2 := BitVec.ofNat 64 (v >>> 128)
  w3 := BitVec.ofNat 64 (v >>> 192)
  w4 := BitVec.ofNat 64 (v >>> 256)

/-- The 320-bit value `{W4, W3, W2, W1, W0}`, `W0` least significant. -/
def Packet.toNat (p : Packet) : Nat :=
  p.w0.toNat + (p.w1.toNat <<< 64) + (p.w2.toNat <<< 128) + (p.w3.toNat <<< 192) + (p.w4.toNat <<< 256)

/-- Byte k of a word is bits [8k+7 : 8k] (little-endian). -/
def wordBytes (w : Word) : List Byte := (List.range 8).map (fun k => w.extractLsb' (8 * k) 8)

/-- The 40 bytes of a serialised packet, the opcode byte first. -/
def Packet.toBytes (p : Packet) : List Byte :=
  wordBytes p.w0 ++ wordBytes p.w1 ++ wordBytes p.w2 ++ wordBytes p.w3 ++ wordBytes p.w4

/-- The value of a little-endian list of bytes. -/
def bytesValue : List Byte → Nat
  | [] => 0
  | b :: rest => b.toNat + 256 * bytesValue rest

/-- Decode the packet at the head of a list of bytes and give the bytes after it. Every command has the one
length of 40 bytes (rule R60), so a shorter list is no packet (log 16). -/
def decodeBytes (bytes : List Byte) : Except DecodeError (Instr × List Byte) :=
  if bytes.length < 40 then .error .truncated
  else
    match decode (Packet.ofNat (bytesValue (bytes.take 40))) with
    | .error e => .error e
    | .ok i => .ok (i, bytes.drop 40)

/-! ### Encoding (rules R60 to R67) -/

/-- The row of a command (rule R66). -/
def Instr.op : Instr → Op
  | .padd _ _ => .padd
  | .pclmul _ _ => .pclmul
  | .preduce _ _ _ => .preduce
  | .pmodmul _ _ _ _ => .pmodmul
  | .pmodexp _ _ _ _ => .pmodexp
  | .isirred _ _ => .isirred
  | .selcanon _ => .selcanon
  | .create _ _ _ _ => .create
  | .findgen => .findgen
  | .rdalog _ => .rdalog
  | .rdlog _ => .rdlog
  | .fadd _ _ => .fadd
  | .fmul _ _ => .fmul
  | .fdiv _ _ => .fdiv
  | .finv _ => .finv
  | .card => .card
  | .char => .char
  | .deg => .deg

/-- `OPC` with no other field: the header of a row whose mask is all ones. -/
def plainHeader (o : Op) : Word := o.opcode.setWidth 64

/-- `OPC` and `MDEG`. -/
def degreeHeader (o : Op) (m : Nat) : Word := o.opcode.setWidth 64 ||| (BitVec.ofNat 7 m).setWidth 64 <<< 8

/-- The header of `CREATE`: `OPC`, `MDEG`, `STRAT`, `HASMOD` and `FB`. -/
def createHeader (m : Nat) (hasmod : Bool) (hint : Hint) (fb : Bool) : Word :=
  degreeHeader .create m ||| hint.toBits.setWidth 64 <<< 16
    ||| (BitVec.ofBool hasmod).setWidth 64 <<< 18 ||| (BitVec.ofBool fb).setWidth 64 <<< 19

/-- The words of a command, written from the table of rule R67. A word the row does not use is 0, as the
assembler of rule R72 sets it. -/
def encode : Instr → Packet
  | .padd a b => ⟨plainHeader .padd, a, b, 0#64, 0#64⟩
  | .pclmul a b => ⟨plainHeader .pclmul, a, b, 0#64, 0#64⟩
  | .preduce wide modulus m =>
    ⟨degreeHeader .preduce m, wide.extractLsb' 0 64, wide.extractLsb' 64 64, modulus, 0#64⟩
  | .pmodmul a b modulus m => ⟨degreeHeader .pmodmul m, a, b, modulus, 0#64⟩
  | .pmodexp base exponent modulus m => ⟨degreeHeader .pmodexp m, base, exponent, modulus, 0#64⟩
  | .isirred poly m => ⟨degreeHeader .isirred m, poly, 0#64, 0#64, 0#64⟩
  | .selcanon m => ⟨degreeHeader .selcanon m, 0#64, 0#64, 0#64, 0#64⟩
  | .create m modulus hint fb =>
    ⟨createHeader m modulus.isSome hint fb, modulus.getD 0#64, 0#64, 0#64, 0#64⟩
  | .findgen => ⟨plainHeader .findgen, 0#64, 0#64, 0#64, 0#64⟩
  | .rdalog i => ⟨plainHeader .rdalog, i, 0#64, 0#64, 0#64⟩
  | .rdlog a => ⟨plainHeader .rdlog, a, 0#64, 0#64, 0#64⟩
  | .fadd a b => ⟨plainHeader .fadd, a, b, 0#64, 0#64⟩
  | .fmul a b => ⟨plainHeader .fmul, a, b, 0#64, 0#64⟩
  | .fdiv a b => ⟨plainHeader .fdiv, a, b, 0#64, 0#64⟩
  | .finv a => ⟨plainHeader .finv, a, 0#64, 0#64, 0#64⟩
  | .card => ⟨plainHeader .card, 0#64, 0#64, 0#64, 0#64⟩
  | .char => ⟨plainHeader .char, 0#64, 0#64, 0#64, 0#64⟩
  | .deg => ⟨plainHeader .deg, 0#64, 0#64, 0#64, 0#64⟩

/-! ### The host's numbering -/

/-- Word k of the packet whose first `nbits` bits are those of `w`: those of its 64 bits that lie below `nbits`. -/
def tableField (nbits w k : Nat) : Word := BitVec.ofNat 64 ((w >>> (64 * k)) % 2 ^ min 64 (nbits - 64 * k))

/-- The packet whose first `nbits` bits are those of `w`, bit 0 the least significant bit of `W0`; the bits above
are 0. -/
def Packet.ofTableWord (nbits w : Nat) : Packet where
  w0 := tableField nbits w 0
  w1 := tableField nbits w 1
  w2 := tableField nbits w 2
  w3 := tableField nbits w 3
  w4 := tableField nbits w 4

/-- What the decoder reads from a row's bits: the packet is laid out as its 40 bytes and given to the decoder. -/
def decodeTableWord (nbits w : Nat) : Option Instr :=
  if 320 < nbits then none
  else
    match decodeBytes (Packet.ofTableWord nbits w).toBytes with
    | .error _ => none
    | .ok (i, _) => some i

end Sys2Proof
end

