-- ==== Sys2Proof/Config.lean ====
section
/-! DEFINITION. What the spec fixes for the engine (00_scope.md rules R6 to R8), the one open
parameter's default, and the free values of a reset. -/

namespace Sys2Proof.Config

/-- `MAX_DEGREE = 63` (rule R6; 90_conflicts.md C3). -/
def maxDegree : Nat := 63

/-- `CHARACTERISTIC = 2` (rule R6). -/
def characteristic : Nat := 2

/-- DESIGN CHOICE (log 1): the ceiling `State.reset` carries, the source's example 24. `TABLE_CEILING` is an
open parameter (rule R7); it stands in `State.tableCeiling`, and a claim holds for every value of that field. -/
def exampleCeiling : Fin 64 := 24

/-- FREE VALUE (log 4): `CTX_M` after the n-th asserted reset (70_reset_and_hazards.md rule R230). -/
opaque unspecifiedM : Nat → BitVec 6

/-- FREE VALUE (log 4): `CTX_MOD` after the n-th asserted reset (rule R230). -/
opaque unspecifiedMod : Nat → BitVec 64

/-- FREE VALUE (log 4): the bit of `CTX_STRAT` after the n-th asserted reset (rule R230). -/
opaque unspecifiedStrat : Nat → Bool

/-- FREE VALUE (log 4): `CTX_GEN` after the n-th asserted reset (rule R230). -/
opaque unspecifiedGen : Nat → BitVec 63

/-- FREE VALUE (log 4): the contents of `ANTILOG` after the n-th asserted reset, as index and entry pairs in
no particular form (rule R230). -/
opaque unspecifiedAntilog : Nat → List (Nat × Nat)

/-- FREE VALUE (log 4): the contents of `LOG` after the n-th asserted reset, as index and entry pairs in no
particular form (rule R230). -/
opaque unspecifiedLog : Nat → List (Nat × Nat)

end Sys2Proof.Config
end

