-- ==== Sys2Proof/Machine/State.lean ====
section
/-! DEFINITION. The architectural state of the engine (10_state.md rules R20 to R36), the two ports
(20_memory.md rules R45, R46), the status codes' names (60_exceptions.md rule R200), the reasons a step can
stop, and the state after reset. -/

namespace Sys2Proof.Machine

/-- The resolved strategy `CTX_STRAT`: 0 = Direct, 1 = Table (rule R27). -/
inductive Strategy where
  | direct
  | table
deriving DecidableEq, Repr, Inhabited

/-- The errors a response can carry (rule R200; the codes are in `ErrorCode.code`). -/
inductive ErrorCode where
  | degreeOutOfRange
  | polynomialDegreeMismatch
  | polynomialNotIrreducible
  | capacityExceeded
  | divisionByZero
  | inversionOfZero
  | illegalCommand
  | noContext
  | noTable
  | operandOutOfRange
  | indexOutOfRange
deriving DecidableEq, Repr

/-- A response: `Ok(R)` with a 128-bit result, or `Err(code)`, which has no result (rules R10, R64, R203). -/
inductive Response where
  | ok (result : Wide)
  | err (code : ErrorCode)
deriving DecidableEq, Repr

/-- A response packet: `S0`, `R_LO`, `R_HI` (rule R64). -/
structure ResponsePacket where
  s0 : Word
  rLo : Word
  rHi : Word
deriving DecidableEq, Repr

/-- What the host can do to the engine: present a packet, or assert reset (70_reset_and_hazards.md rule R237). -/
inductive HostInput where
  | packet (p : Packet)
  | reset
deriving DecidableEq, Repr

/-- The two table memories (20_memory.md rule R40). -/
inductive TableId where
  | antilog
  | log
deriving DecidableEq, Repr

/-- A table memory: (index, entry) pairs, indices strictly rising (`Table.wf`); an index that is not listed holds
no value the model names (logs 3, 8). -/
abbrev Table := List (Nat × Nat)

/-- Why the MODEL stops. None is a stop of the hardware: 93_implementation_defined.md (U2, U7) asks for a fault
of the model where the rules say a case cannot arise. All are safe: no run from reset reaches one. -/
inductive Fault where
  /-- Raised by `tblRead` outside the precondition of 20_memory.md rule R42 (U2, U7). Safe. -/
  | tableReadOutside
  /-- Raised by `tblRead` at an index in range that nothing has written (rule R42; log 9). Safe. -/
  | tableEntryUnwritten
  /-- Raised where 41_checker.md rule R123 says "not reached": no candidate is irreducible (log 10). Safe. -/
  | noCanonicalModulus
  /-- Raised where 42_table.md rule R141 says "not reached": no element is a generator (log 10). Safe. -/
  | noGenerator
deriving DecidableEq, Repr

/-- No meaning for the instruction. Every command of the table has its meaning, so nothing answers this. -/
inductive Refusal where
  /-- Raised by an arm of `exec` whose instruction has no meaning yet; no arm does. Safe. -/
  | notModelled (mnemonic : String)
deriving DecidableEq, Repr

/-- The state of the engine. -/
structure State where
  /-- `CTX_VALID`, 1 bit (rule R24) -/
  ctxValid : Bool
  /-- `CTX_M`, 6 bits (rule R25) -/
  ctxM : BitVec 6
  /-- `CTX_MOD`, 64 bits (rule R26) -/
  ctxMod : BitVec 64
  /-- `CTX_STRAT`, 1 bit (rule R27) -/
  ctxStrat : Strategy
  /-- `CTX_GEN`, 63 bits (rule R28) -/
  ctxGen : BitVec 63
  /-- the memory `ANTILOG` (rule R31) -/
  antilog : Table
  /-- the memory `LOG` (rule R32) -/
  log : Table
  /-- the command port: what the host presents, next first (rule R45; log 5) -/
  cmdPort : List HostInput
  /-- the response port: what has been delivered, oldest first (rules R46, R238; log 6) -/
  respPort : List Response
  /-- the parameter `TABLE_CEILING` of this engine, 0 to 63 (rules R7, R35; log 1) -/
  tableCeiling : Fin 64
  /-- how many resets have been asserted: the argument of the free values (log 4) -/
  resetCount : Nat
deriving DecidableEq, Repr

/-- The state after reset of an engine whose `TABLE_CEILING` is `ceiling`: `CTX_VALID = 0` (rules R36, R230); the
registers the spec leaves unspecified hold the values log 2 names; no table entry is listed (log 3). -/
def State.resetWith (ceiling : Fin 64) : State where
  ctxValid := false
  ctxM := 0#6
  ctxMod := 0#64
  ctxStrat := .direct
  ctxGen := 0#63
  antilog := []
  log := []
  cmdPort := []
  respPort := []
  tableCeiling := ceiling
  resetCount := 0

/-- The machine right after reset, with the source's example ceiling (log 1). -/
def State.reset : State := State.resetWith Config.exampleCeiling

end Sys2Proof.Machine
end

