-- ==== Sys2Proof/Machine/Ops.lean ====
section
/-! DEFINITION. The shared operations: the table memories (20_memory.md rules R42, R43), the two ports (R45,
R46), raising an error (00_scope.md rule R12, 60_exceptions.md rule R203) and reset (70_reset_and_hazards.md
rule R230). -/

namespace Sys2Proof.Machine

/-! ### Raising an error

`raise code` ends a command with `Err(code)` and no state written. It is the engine's only exception: nothing is
saved, nothing is entered, and there is nothing to return from (rules R212, R213). -/

/-- Why a command's pseudocode ended early: an error the response reports, or a fault of the model. -/
inductive Stop where
  | raise (code : ErrorCode)
  | fault (f : Fault)
deriving DecidableEq, Repr

/-- A piece of a command's pseudocode that gives an `α`, raises an error, or faults. -/
abbrev Cmd (α : Type) := Except Stop α

/-- `raise code` (rule R12). -/
def raise {α : Type} (code : ErrorCode) : Cmd α := .error (.raise code)

/-- A fault of the model (93_implementation_defined.md). -/
def modelFault {α : Type} (f : Fault) : Cmd α := .error (.fault f)

/-- `zext_128(v)` (rule R9); every result fits 128 bits. -/
def zext128 (v : Nat) : Wide := BitVec.ofNat 128 v

/-! ### The response port -/

/-- Deliver one response (rule R46). -/
def State.respond (s : State) (r : Response) : State := { s with respPort := s.respPort ++ [r] }

/-- End a command: on success its new state with its result delivered; on an error the state unchanged but for
the error's response (rule R203); a fault of the model stops it. -/
def conclude (s : State) : Cmd (State × Wide) → Host.Outcome State Fault Refusal
  | .ok (t, r) => .next (t.respond (.ok r))
  | .error (.raise code) => .next (s.respond (.err code))
  | .error (.fault f) => .fault f

/-- End a command that writes no architectural state (rule R13). -/
def deliver (s : State) (result : Cmd Wide) : Host.Outcome State Fault Refusal :=
  conclude s (result.map (fun r => (s, r)))

/-- What an illegal packet does: `IllegalCommand` and no other effect (30_encoding.md rule R68). -/
def answerIllegal (s : State) : Host.Outcome State Fault Refusal := deliver s (raise .illegalCommand)

/-! ### The command port -/

/-- The next input of the host and the port without it; `none` when the engine is idle with nothing presented
(rules R45, R220). -/
def takeInput (s : State) : Option (HostInput × State) :=
  match s.cmdPort with
  | [] => none
  | input :: rest => some (input, { s with cmdPort := rest })

/-- Present a packet so that it is the next the engine takes (log 5). -/
def present (p : Packet) (s : State) : State := { s with cmdPort := .packet p :: s.cmdPort }

/-! ### The table memories -/

/-- Indices strictly rising: the canonical form of a table. -/
def Table.wf : Table → Bool
  | [] => true
  | [_] => true
  | (i, _) :: (j, w) :: rest => decide (i < j) && Table.wf ((j, w) :: rest)

/-- The entry at index `i`, if one is listed. -/
def Table.lookup : Table → Nat → Option Nat
  | [], _ => none
  | (j, v) :: rest, i => if i = j then some v else Table.lookup rest i

/-- Write entry `i`, keeping the indices strictly rising. -/
def Table.write : Table → Nat → Nat → Table
  | [], i, v => [(i, v)]
  | (j, w) :: rest, i, v =>
    if i < j then (i, v) :: (j, w) :: rest
    else if i = j then (i, v) :: rest
    else (j, w) :: Table.write rest i v

/-- The table that holds the listed entries, a later pair of one index over an earlier. -/
def Table.ofList (entries : List (Nat × Nat)) : Table :=
  entries.foldl (fun t e => Table.write t e.1 e.2) []

/-- The named memory. -/
def State.table (s : State) : TableId → Table
  | .antilog => s.antilog
  | .log => s.log

/-- The degree `m = CTX_M` as a number (rule R25). -/
def State.m (s : State) : Nat := s.ctxM.toNat

/-- The modulus `f = CTX_MOD` as a polynomial (rule R26). -/
def State.modulus (s : State) : Poly := s.ctxMod.toNat

/-- `order = 2^CTX_M − 1` (rule R25). -/
def State.order (s : State) : Nat := 2 ^ s.m - 1

/-- The index range in use: `0 ≤ i < order` for `ANTILOG`, `1 ≤ i < 2^m` for `LOG` (rule R42). -/
def TableId.inRange (m i : Nat) : TableId → Bool
  | .antilog => decide (i < 2 ^ m - 1)
  | .log => decide (1 ≤ i) && decide (i < 2 ^ m)

/-- `TblRead(T, i)` (rule R42): a fault of the model outside its precondition `CTX_VALID = 1`, `CTX_STRAT = 1`
and i in range, and where nothing has written the entry. A read has no side effect. -/
def tblRead (s : State) (T : TableId) (i : Nat) : Cmd Nat :=
  if s.ctxValid = true ∧ s.ctxStrat = .table ∧ T.inRange s.m i = true then
    match (s.table T).lookup i with
    | some v => .ok v
    | none => modelFault .tableEntryUnwritten
  else modelFault .tableReadOutside

/-- `TblWrite(T, i, v)` (rule R43). -/
def State.tblWrite (s : State) (T : TableId) (i v : Nat) : State :=
  match T with
  | .antilog => { s with antilog := s.antilog.write i v }
  | .log => { s with log := s.log.write i v }

/-! ### Reset -/

/-- Reset, asserted by the host: `CTX_VALID <- 0`; every other register and every table entry becomes
unspecified, a free value (rule R230; log 4). The host's further inputs, the responses already delivered and the
ceiling are not the engine's to forget (log 7). -/
def State.assertReset (s : State) : State :=
  { s with
    ctxValid := false
    ctxM := Config.unspecifiedM s.resetCount
    ctxMod := Config.unspecifiedMod s.resetCount
    ctxStrat := if Config.unspecifiedStrat s.resetCount then .table else .direct
    ctxGen := Config.unspecifiedGen s.resetCount
    antilog := Table.ofList (Config.unspecifiedAntilog s.resetCount)
    log := Table.ofList (Config.unspecifiedLog s.resetCount)
    resetCount := s.resetCount + 1 }

end Sys2Proof.Machine
end

