-- ==== Sys2Proof/Machine/Poly.lean ====
section
/-! DEFINITION. Polynomials over GF(2) as natural numbers: the primitives of 00_scope.md rule R11 and the
functions of 40_ring.md (rules R100 to R108) and 43_context.md rule R178. Every loop of the spec is a recursion
on a bound the spec gives it (70_reset_and_hazards.md rule R236; log 17). -/

namespace Sys2Proof.Machine

/-- `deg(p)`: the index of the highest set bit; `deg(0) = −1` (rule R11). -/
def deg (p : Poly) : Int := if p = 0 then -1 else (Nat.log2 p : Int)

/-- `Add(a, b) = a xor b` (rule R100). -/
def polyAdd (a b : Poly) : Poly := a ^^^ b

/-- The partial products of the bits of `b` below `n`, summed (rule R102). -/
def clmulBelow (a b : Poly) : Nat → Poly
  | 0 => 0
  | n + 1 => clmulBelow a b n ^^^ (if b.testBit n then a <<< n else 0)

/-- `clmul(a, b)`, the schoolbook product in GF(2)[x] (rule R102). -/
def clmul (a b : Poly) : Poly := clmulBelow a b (Nat.log2 b + 1)

/-- `while deg(w) >= m: w <- w xor (f << (deg(w) − m))`, at most `steps` times (rule R104). -/
def reduceLoop (f : Poly) (m : Nat) : Nat → Poly → Poly
  | 0, w => w
  | steps + 1, w =>
    if (m : Int) ≤ deg w then reduceLoop f m steps (w ^^^ (f <<< (deg w - m).toNat)) else w

/-- `Reduce(w, f, m)`, defined when `deg(f) = m`: the loop runs at most `deg(w) − m + 1` times (rule R104). -/
def reduce (w f : Poly) (m : Nat) : Poly := reduceLoop f m (Nat.log2 w + 1) w

/-- `ModMultiply(a, b, f, m)` (rule R106). -/
def modMultiply (a b f : Poly) (m : Nat) : Poly := reduce (clmul a b) f m

/-- The repeated-squaring loop of rule R108, at most `steps` rounds. -/
def modExpLoop (f : Poly) (m : Nat) : Nat → Poly → Poly → Nat → Poly
  | 0, result, _, _ => result
  | steps + 1, result, b, e =>
    if e = 0 then result
    else
      modExpLoop f m steps (if e.testBit 0 then modMultiply result b f m else result) (modMultiply b b f m) (e >>> 1)

/-- `ModExponentiate(base, e, f, m)`: one round for each bit of `e` (rule R108). -/
def modExponentiate (base : Poly) (e : Nat) (f : Poly) (m : Nat) : Poly :=
  modExpLoop f m (Nat.log2 e + 1) (reduce 1 f m) (reduce base f m) e

/-- `while deg(r) >= deg(b): s <- deg(r) − deg(b); q <- q xor (1 << s); r <- r xor (b << s)` (rule R11). -/
def polyDivModLoop (b : Poly) : Nat → Poly → Poly → Poly × Poly
  | 0, q, r => (q, r)
  | steps + 1, q, r =>
    if deg b ≤ deg r then
      polyDivModLoop b steps (q ^^^ (1 <<< (deg r - deg b).toNat)) (r ^^^ (b <<< (deg r - deg b).toNat))
    else (q, r)

/-- `PolyDivMod(a, b)` for `b ≠ 0`: quotient and remainder (rule R11). No rule calls it with `b = 0`. -/
def polyDivMod (a b : Poly) : Poly × Poly := polyDivModLoop b (Nat.log2 a + 1) 0 a

/-- `while b != 0: (a, b) <- (b, PolyDivMod(a, b).r)` (rule R11). -/
def polyGcdLoop : Nat → Poly → Poly → Poly
  | 0, a, _ => a
  | steps + 1, a, b => if b = 0 then a else polyGcdLoop steps b (polyDivMod a b).2

/-- `PolyGcd(a, b)`: the degree of `b` falls at every round (rules R11, R236). -/
def polyGcd (a b : Poly) : Poly := polyGcdLoop (Nat.log2 b + 2) a b

/-- The extended Euclid loop of rule R178. -/
def polyInvLoop : Nat → Poly → Poly → Poly → Poly → Poly
  | 0, _, _, s0, _ => s0
  | steps + 1, r0, r1, s0, s1 =>
    if r1 = 0 then s0
    else polyInvLoop steps r1 (polyDivMod r0 r1).2 s1 (s0 ^^^ clmul (polyDivMod r0 r1).1 s1)

/-- `PolyInv(a, f, m)`: the s with `ModMultiply(a, s, f, m) = 1`, for `f` irreducible and `1 ≤ a < 2^m`
(43_context.md rule R178). -/
def polyInv (a f : Poly) : Poly := polyInvLoop (Nat.log2 a + 2) f a 0 1

end Sys2Proof.Machine
end

