-- ==== Sys2Proof/Machine/Operands.lean ====
section
/-! DEFINITION. The checks a command makes of its operands and of the context before it computes, each raising
the status its rule names. -/

namespace Sys2Proof.Machine

/-- `CheckDegree(m)`: `if m = 0 or m > 63: raise DegreeOutOfRange` (40_ring.md rule R110). -/
def checkDegree (m : Nat) : Cmd Unit :=
  if m = 0 ∨ Config.maxDegree < m then raise .degreeOutOfRange else .ok ()

/-- `CheckTop(p, m)`: `if deg(p) != m: raise PolynomialDegreeMismatch` (rule R111). -/
def checkTop (p : Poly) (m : Nat) : Cmd Unit :=
  if deg p ≠ (m : Int) then raise .polynomialDegreeMismatch else .ok ()

/-- `if CTX_VALID = 0: raise NoContext` (60_exceptions.md rule R206). -/
def requireContext (s : State) : Cmd Unit := if s.ctxValid = true then .ok () else raise .noContext

/-- `if CTX_STRAT = 0: raise NoTable` (42_table.md rules R150, R151). -/
def requireTable (s : State) : Cmd Unit :=
  match s.ctxStrat with
  | .direct => raise .noTable
  | .table => .ok ()

/-- `CheckElement(v)`: `if v >= 2^CTX_M: raise OperandOutOfRange` (43_context.md rule R183). -/
def checkElement (s : State) (v : Nat) : Cmd Unit :=
  if 2 ^ s.m ≤ v then raise .operandOutOfRange else .ok ()

/-- `if A >= 2^CTX_M − 1: raise IndexOutOfRange` (rule R150). -/
def checkIndex (s : State) (i : Nat) : Cmd Unit := if s.order ≤ i then raise .indexOutOfRange else .ok ()

/-- `if A = 0 or A >= 2^CTX_M: raise OperandOutOfRange` (rule R151). -/
def checkLogOperand (s : State) (a : Nat) : Cmd Unit :=
  if a = 0 ∨ 2 ^ s.m ≤ a then raise .operandOutOfRange else .ok ()

end Sys2Proof.Machine
end

