-- ==== Sys2Proof/Machine/Checker.lean ====
section
/-! DEFINITION. The IrreducibilityChecker (41_checker.md): its two functions and the commands ISIRRED and
SELCANON. -/

namespace Sys2Proof.Machine

/-- "every proper divisor i of m": every i with 1 ≤ i < m and i dividing m (rule R120 (b)). -/
def properDivisors (m : Nat) : List Nat := (List.range m).filter (fun i => decide (1 ≤ i ∧ m % i = 0))

/-- `x^(2^i) mod f` (rule R120). -/
def frobeniusOfX (f : Poly) (m i : Nat) : Poly := modExponentiate 0b10 (2 ^ i) f m

/-- `IsIrreducible(f, m)`, defined when 1 ≤ m ≤ 63 and `deg(f) = m`: `x^(2^m) ≡ x`, and `gcd(f, x^(2^i) − x) = 1`
for every proper divisor i of m, with x reduced modulo f in both (rule R120). -/
def isIrreducible (f : Poly) (m : Nat) : Bool :=
  frobeniusOfX f m m == reduce 0b10 f m
    && (properDivisors m).all (fun i => polyGcd f (frobeniusOfX f m i ^^^ reduce 0b10 f m) == 1)

/-- The trinomials `2^m + 2^k + 1`, k = 1, …, m − 1 (rule R122 (b)). -/
def trinomials (m : Nat) : List Poly := (List.range' 1 (m - 1)).map (fun k => 2 ^ m + 2 ^ k + 1)

/-- The pentanomials `2^m + 2^a + 2^b + 2^c + 1`, m > a > b > c ≥ 1, by increasing a, then b, then c
(rule R122 (c)). -/
def pentanomials (m : Nat) : List Poly :=
  (List.range' 1 (m - 1)).flatMap fun a =>
    (List.range' 1 (a - 1)).flatMap fun b =>
      (List.range' 1 (b - 1)).map fun c => 2 ^ m + 2 ^ a + 2 ^ b + 2 ^ c + 1

/-- `Candidates(m)` (rule R122). -/
def candidates (m : Nat) : List Poly := if m = 1 then [0b11] else trinomials m ++ pentanomials m

/-- The first candidate that passes `IsIrreducible`, if one does (rule R123). -/
def findCanonical (m : Nat) : Option Poly := (candidates m).find? (fun f => isIrreducible f m)

/-- `SelectCanonical(m)`; the end of the search is "not reached for 1 <= m <= 63", so it is a fault of the model
(rules R123, R125; log 10). -/
def selectCanonical (m : Nat) : Cmd Poly :=
  match findCanonical m with
  | some f => .ok f
  | none => modelFault .noCanonicalModulus

/-- `ISIRRED poly, m` (rule R121): a reducible polynomial is no error, the answer is 0. -/
def execIsirred (poly : Word) (m : Nat) (s : State) : Host.Outcome State Fault Refusal :=
  deliver s do
    checkDegree m
    checkTop poly.toNat m
    return zext128 (if isIrreducible poly.toNat m then 1 else 0)

/-- `SELCANON m` (rule R124). -/
def execSelcanon (m : Nat) (s : State) : Host.Outcome State Fault Refusal :=
  deliver s do
    checkDegree m
    let f ← selectCanonical m
    return zext128 f

end Sys2Proof.Machine
end

