-- ==== Sys2Proof/Machine/LogTable.lean ====
section
/-! DEFINITION. The DiscreteLogTable (42_table.md): the generator search, Build, the table arithmetic, and the
commands FINDGEN, RDALOG and RDLOG. -/

namespace Sys2Proof.Machine

/-! ### The generator (rules R140, R141) -/

/-- The rows m = 1 to 16 of rule R140's table. -/
def orderFactors1To16 : List (List Nat) :=
  [[],
   [3],
   [7],
   [3, 5],
   [31],
   [3, 7],
   [127],
   [3, 5, 17],
   [7, 73],
   [3, 11, 31],
   [23, 89],
   [3, 5, 7, 13],
   [8191],
   [3, 43, 127],
   [7, 31, 151],
   [3, 5, 17, 257]]

/-- The rows m = 17 to 32 of rule R140's table. -/
def orderFactors17To32 : List (List Nat) :=
  [[131071],
   [3, 7, 19, 73],
   [524287],
   [3, 5, 11, 31, 41],
   [7, 127, 337],
   [3, 23, 89, 683],
   [47, 178481],
   [3, 5, 7, 13, 17, 241],
   [31, 601, 1801],
   [3, 2731, 8191],
   [7, 73, 262657],
   [3, 5, 29, 43, 113, 127],
   [233, 1103, 2089],
   [3, 7, 11, 31, 151, 331],
   [2147483647],
   [3, 5, 17, 257, 65537]]

/-- The rows m = 33 to 48 of rule R140's table. -/
def orderFactors33To48 : List (List Nat) :=
  [[7, 23, 89, 599479],
   [3, 43691, 131071],
   [31, 71, 127, 122921],
   [3, 5, 7, 13, 19, 37, 73, 109],
   [223, 616318177],
   [3, 174763, 524287],
   [7, 79, 8191, 121369],
   [3, 5, 11, 17, 31, 41, 61681],
   [13367, 164511353],
   [3, 7, 43, 127, 337, 5419],
   [431, 9719, 2099863],
   [3, 5, 23, 89, 397, 683, 2113],
   [7, 31, 73, 151, 631, 23311],
   [3, 47, 178481, 2796203],
   [2351, 4513, 13264529],
   [3, 5, 7, 13, 17, 97, 241, 257, 673]]

/-- The rows m = 49 to 63 of rule R140's table. -/
def orderFactors49To63 : List (List Nat) :=
  [[127, 4432676798593],
   [3, 11, 31, 251, 601, 1801, 4051],
   [7, 103, 2143, 11119, 131071],
   [3, 5, 53, 157, 1613, 2731, 8191],
   [6361, 69431, 20394401],
   [3, 7, 19, 73, 87211, 262657],
   [23, 31, 89, 881, 3191, 201961],
   [3, 5, 17, 29, 43, 113, 127, 15790321],
   [7, 32377, 524287, 1212847],
   [3, 59, 233, 1103, 2089, 3033169],
   [179951, 3203431780337],
   [3, 5, 7, 11, 13, 31, 41, 61, 151, 331, 1321],
   [2305843009213693951],
   [3, 715827883, 2147483647],
   [7, 73, 127, 337, 92737, 649657]]

/-- `PrimeFactors(2^m − 1)` for 1 ≤ m ≤ 63, by the table of rule R140, which the rule lets a model use (the
factorisations are the spec's general knowledge G4; log 11). Row m stands at place m − 1. -/
def orderFactors (m : Nat) : List Nat :=
  (orderFactors1To16 ++ orderFactors17To32 ++ orderFactors33To48 ++ orderFactors49To63).getD (m - 1) []

/-- `IsGenerator(g, f, m)` (rule R141). -/
def isGenerator (g f : Poly) (m : Nat) : Bool :=
  modExponentiate g (2 ^ m - 1) f m == 1
    && (orderFactors m).all (fun p => modExponentiate g ((2 ^ m - 1) / p) f m != 1)

/-- The first of g, g + 1, …, at most `count` candidates, that is a generator (rule R141). -/
def findGeneratorFrom (f : Poly) (m : Nat) : Nat → Poly → Option Poly
  | 0, _ => none
  | count + 1, g => if isGenerator g f m then some g else findGeneratorFrom f m count (g + 1)

/-- The search of rule R141: 1 for m = 1; else the first generator among 2, 3, …, 2^m − 1. -/
def searchGenerator (f : Poly) (m : Nat) : Option Poly :=
  if m = 1 then some 1 else findGeneratorFrom f m (2 ^ m - 2) 2

/-- `FindGenerator(f, m)`; the end of the search is "not reached", so it is a fault of the model (rule R141;
log 10). -/
def findGenerator (f : Poly) (m : Nat) : Cmd Poly :=
  match searchGenerator f m with
  | some g => .ok g
  | none => modelFault .noGenerator

/-! ### Building the tables (rules R142, R146) -/

/-- The loop of `Build` from exponent `i` on, `count` rounds: the stores come before the multiplication
(rule R142; 90_conflicts.md C1). -/
def buildFrom (f : Poly) (m : Nat) (g : Poly) : Nat → Nat → Poly → State → State
  | 0, _, _, s => s
  | count + 1, i, current, s =>
    buildFrom f m g count (i + 1) (modMultiply current g f m)
      ((s.tblWrite .antilog i current).tblWrite .log current i)

/-- `Build(f, m, g)`: exponents 0 to order − 1, `current` starting at 1 (rule R142). -/
def build (f : Poly) (m : Nat) (g : Poly) (s : State) : State := buildFrom f m g (2 ^ m - 1) 0 1 s

/-- `TableAvailable(m)`: `m ≤ TABLE_CEILING`, inclusive (rules R7, R146; 90_conflicts.md C2). -/
def tableAvailable (s : State) (m : Nat) : Bool := decide (m ≤ s.tableCeiling.val)

/-! ### Table arithmetic (rules R143 to R145)

None is called with a zero operand (rule R147); `LOG[0]` does not exist, so `tblRead` would fault. -/

/-- `TableMultiply(a, b) = ANTILOG[(LOG[a] + LOG[b]) mod order]` (rule R143). -/
def tableMultiply (s : State) (a b : Nat) : Cmd Nat := do
  let i ← tblRead s .log a
  let j ← tblRead s .log b
  tblRead s .antilog ((i + j) % s.order)

/-- `TableDivide(a, b) = ANTILOG[(LOG[a] − LOG[b] + order) mod order]` (rule R144); `LOG[b] < order`, so the
difference with `order` added first never goes below zero (rule R112 (d)). -/
def tableDivide (s : State) (a b : Nat) : Cmd Nat := do
  let i ← tblRead s .log a
  let j ← tblRead s .log b
  tblRead s .antilog ((i + s.order - j) % s.order)

/-- `TableInvert(a) = ANTILOG[(order − LOG[a]) mod order]` (rule R145). -/
def tableInvert (s : State) (a : Nat) : Cmd Nat := do
  let i ← tblRead s .log a
  tblRead s .antilog ((s.order - i) % s.order)

/-! ### Commands -/

/-- `FINDGEN` (rule R149): recomputed from the descriptor, for both strategies. -/
def execFindgen (s : State) : Host.Outcome State Fault Refusal :=
  deliver s do
    requireContext s
    let g ← findGenerator s.modulus s.m
    return zext128 g

/-- `RDALOG i` (rule R150). -/
def execRdalog (i : Word) (s : State) : Host.Outcome State Fault Refusal :=
  deliver s do
    requireContext s
    requireTable s
    checkIndex s i.toNat
    let v ← tblRead s .antilog i.toNat
    return zext128 v

/-- `RDLOG a` (rule R151). -/
def execRdlog (a : Word) (s : State) : Host.Outcome State Fault Refusal :=
  deliver s do
    requireContext s
    requireTable s
    checkLogOperand s a.toNat
    let v ← tblRead s .log a.toNat
    return zext128 v

end Sys2Proof.Machine
end

