-- ==== Sys2Proof/Machine/Context.lean ====
section
/-! DEFINITION. The FieldContext commands (43_context.md): CREATE, the one command that writes architectural
state, and the pure commands FADD, FMUL, FDIV, FINV, CARD, CHAR and DEG. -/

namespace Sys2Proof.Machine

/-! ### CREATE (rules R170, R171) -/

/-- Phase 1, the modulus: the supplied one if it has degree m and is irreducible; the canonical one if none is
supplied, or if the supplied one fails the irreducibility test and fallback is requested (rule R170). -/
def chooseModulus (m : Nat) (modulus : Option Word) (fb : Bool) : Cmd Poly :=
  match modulus with
  | none => selectCanonical m
  | some a => do
    checkTop a.toNat m
    if isIrreducible a.toNat m then return a.toNat
    else if fb then selectCanonical m
    else raise .polynomialNotIrreducible

/-- Phase 1, the strategy: `Table` above the ceiling is `CapacityExceeded`, `Auto` above it is Direct
(rule R170; 90_conflicts.md C9). -/
def resolveStrategy (s : State) (m : Nat) : Hint → Cmd Strategy
  | .table => if tableAvailable s m then return .table else raise .capacityExceeded
  | .auto => return (if tableAvailable s m then .table else .direct)
  | .direct => return .direct

/-- Phase 1 of `Create`: every check that can fail, in the order degree, modulus, capacity; nothing is written
(rule R170). -/
def createChecks (s : State) (m : Nat) (modulus : Option Word) (hint : Hint) (fb : Bool) : Cmd (Poly × Strategy) := do
  checkDegree m
  let f ← chooseModulus m modulus fb
  let strategy ← resolveStrategy s m hint
  return (f, strategy)

/-- The last line of phase 2: `CTX_M`, `CTX_MOD`, `CTX_STRAT` and `CTX_VALID` (rule R170). -/
def State.setDescriptor (s : State) (f : Poly) (m : Nat) (strategy : Strategy) : State :=
  { s with
    ctxM := BitVec.ofNat 6 m
    ctxMod := BitVec.ofNat 64 f
    ctxStrat := strategy
    ctxValid := true }

/-- `CTX_GEN <- g` (rule R170). -/
def State.setGenerator (s : State) (g : Poly) : State := { s with ctxGen := BitVec.ofNat 63 g }

/-- Phase 2 of `Create`: the tables and the generator when the strategy is Table, then the descriptor. A Direct
context leaves the generator and the old table contents in place (rules R170, R171; log 12). -/
def createCommit (s : State) (f : Poly) (m : Nat) : Strategy → Cmd State
  | .direct => return s.setDescriptor f m .direct
  | .table => do
    let g ← findGenerator f m
    return ((build f m g s).setGenerator g).setDescriptor f m .table

/-- `CREATE m, modulus or -, hint, FB` (rules R170, R171): R = 0 on success; on an error nothing is written. -/
def execCreate (m : Nat) (modulus : Option Word) (hint : Hint) (fb : Bool) (s : State) :
    Host.Outcome State Fault Refusal :=
  conclude s do
    let (f, strategy) ← createChecks s m modulus hint fb
    let t ← createCommit s f m strategy
    return (t, zext128 0)

/-! ### Field arithmetic -/

/-- `FieldMultiply(a, b)` (rule R174). -/
def fieldMultiply (s : State) (a b : Nat) : Cmd Nat :=
  match s.ctxStrat with
  | .direct => return modMultiply a b s.modulus s.m
  | .table => if a = 0 ∨ b = 0 then return 0 else tableMultiply s a b

/-- `FieldInvert(a)`, for a ≠ 0 (rule R178). -/
def fieldInvert (s : State) (a : Nat) : Cmd Nat :=
  match s.ctxStrat with
  | .direct => return polyInv a s.modulus
  | .table => tableInvert s a

/-- `FieldDivide(a, b)`, for b ≠ 0 (rule R176). -/
def fieldDivide (s : State) (a b : Nat) : Cmd Nat :=
  match s.ctxStrat with
  | .direct => return modMultiply a (polyInv b s.modulus) s.modulus s.m
  | .table => if a = 0 then return 0 else tableDivide s a b

/-- `FADD a, b` (rules R172, R173). -/
def execFadd (a b : Word) (s : State) : Host.Outcome State Fault Refusal :=
  deliver s do
    requireContext s
    checkElement s a.toNat
    checkElement s b.toNat
    return zext128 (polyAdd a.toNat b.toNat)

/-- `FMUL a, b` (rule R175). -/
def execFmul (a b : Word) (s : State) : Host.Outcome State Fault Refusal :=
  deliver s do
    requireContext s
    checkElement s a.toNat
    checkElement s b.toNat
    let r ← fieldMultiply s a.toNat b.toNat
    return zext128 r

/-- `FDIV a, b`: the range checks come before the zero check (rule R177). -/
def execFdiv (a b : Word) (s : State) : Host.Outcome State Fault Refusal :=
  deliver s do
    requireContext s
    checkElement s a.toNat
    checkElement s b.toNat
    if b.toNat = 0 then raise .divisionByZero
    let r ← fieldDivide s a.toNat b.toNat
    return zext128 r

/-- `FINV a` (rule R179). -/
def execFinv (a : Word) (s : State) : Host.Outcome State Fault Refusal :=
  deliver s do
    requireContext s
    checkElement s a.toNat
    if a.toNat = 0 then raise .inversionOfZero
    let r ← fieldInvert s a.toNat
    return zext128 r

/-! ### Accessors -/

/-- `CARD` (rule R180). -/
def execCard (s : State) : Host.Outcome State Fault Refusal :=
  deliver s do
    requireContext s
    return zext128 (2 ^ s.m)

/-- `CHAR` (rule R181). -/
def execChar (s : State) : Host.Outcome State Fault Refusal :=
  deliver s do
    requireContext s
    return zext128 Config.characteristic

/-- `DEG` (rule R182). -/
def execDeg (s : State) : Host.Outcome State Fault Refusal :=
  deliver s do
    requireContext s
    return zext128 s.m

end Sys2Proof.Machine
end

