-- ==== Sys2Proof/Machine/Ring.lean ====
section
/-! DEFINITION. The PolynomialRing commands (40_ring.md): context-free, they read no architectural state and
write none. -/

namespace Sys2Proof.Machine

/-- `PADD a, b` (rule R101): total. -/
def execPadd (a b : Word) (s : State) : Host.Outcome State Fault Refusal :=
  deliver s (.ok (zext128 (polyAdd a.toNat b.toNat)))

/-- `PCLMUL a, b` (rule R103): the whole 128-bit product; total. -/
def execPclmul (a b : Word) (s : State) : Host.Outcome State Fault Refusal :=
  deliver s (.ok (zext128 (clmul a.toNat b.toNat)))

/-- `PREDUCE wide, modulus, m` (rule R105). -/
def execPreduce (wide : Wide) (modulus : Word) (m : Nat) (s : State) : Host.Outcome State Fault Refusal :=
  deliver s do
    checkDegree m
    checkTop modulus.toNat m
    return zext128 (reduce wide.toNat modulus.toNat m)

/-- `PMODMUL a, b, modulus, m` (rule R107): the operands need not be below 2^m. -/
def execPmodmul (a b modulus : Word) (m : Nat) (s : State) : Host.Outcome State Fault Refusal :=
  deliver s do
    checkDegree m
    checkTop modulus.toNat m
    return zext128 (modMultiply a.toNat b.toNat modulus.toNat m)

/-- `PMODEXP base, exponent, modulus, m` (rule R109): the exponent is any 64-bit number. -/
def execPmodexp (base exponent modulus : Word) (m : Nat) (s : State) : Host.Outcome State Fault Refusal :=
  deliver s do
    checkDegree m
    checkTop modulus.toNat m
    return zext128 (modExponentiate base.toNat exponent.toNat modulus.toNat m)

end Sys2Proof.Machine
end

