-- ==== Sys2Proof/Machine/Dispatch.lean ====
section
/-! DEFINITION. One arm per command: which meaning each constructor of Instr has. -/

namespace Sys2Proof.Machine

def exec (i : Instr) (s : State) : Host.Outcome State Fault Refusal :=
  match i with
  | .padd a b => Sys2Proof.Machine.execPadd a b s
  | .pclmul a b => Sys2Proof.Machine.execPclmul a b s
  | .preduce wide modulus m => Sys2Proof.Machine.execPreduce wide modulus m s
  | .pmodmul a b modulus m => Sys2Proof.Machine.execPmodmul a b modulus m s
  | .pmodexp base exponent modulus m => Sys2Proof.Machine.execPmodexp base exponent modulus m s
  | .isirred poly m => Sys2Proof.Machine.execIsirred poly m s
  | .selcanon m => Sys2Proof.Machine.execSelcanon m s
  | .create m modulus hint fb => Sys2Proof.Machine.execCreate m modulus hint fb s
  | .findgen => Sys2Proof.Machine.execFindgen s
  | .rdalog index => Sys2Proof.Machine.execRdalog index s
  | .rdlog a => Sys2Proof.Machine.execRdlog a s
  | .fadd a b => Sys2Proof.Machine.execFadd a b s
  | .fmul a b => Sys2Proof.Machine.execFmul a b s
  | .fdiv a b => Sys2Proof.Machine.execFdiv a b s
  | .finv a => Sys2Proof.Machine.execFinv a s
  | .card => Sys2Proof.Machine.execCard s
  | .char => Sys2Proof.Machine.execChar s
  | .deg => Sys2Proof.Machine.execDeg s

end Sys2Proof.Machine
end

