-- ==== Sys2Proof/Machine/Flags.lean ====
section
/-! DEFINITION. The engine has no flags and no condition codes (10_state.md rule R22). What a command leaves the
host instead is the STATUS of its response: the status codes (60_exceptions.md rule R200) and the response packet
(30_encoding.md rule R64). -/

namespace Sys2Proof.Machine

/-- The status code of an error (rule R200). -/
def ErrorCode.code : ErrorCode → BitVec 8
  | .degreeOutOfRange => 0x01#8
  | .polynomialDegreeMismatch => 0x02#8
  | .polynomialNotIrreducible => 0x03#8
  | .capacityExceeded => 0x04#8
  | .divisionByZero => 0x05#8
  | .inversionOfZero => 0x06#8
  | .illegalCommand => 0x10#8
  | .noContext => 0x11#8
  | .noTable => 0x12#8
  | .operandOutOfRange => 0x13#8
  | .indexOutOfRange => 0x14#8

/-- The classes of the errors (rule R200). -/
inductive ErrorClass where
  | construction
  | arithmetic
  | interface
deriving DecidableEq, Repr

/-- The class of an error (rule R200). -/
def ErrorCode.class : ErrorCode → ErrorClass
  | .degreeOutOfRange => .construction
  | .polynomialDegreeMismatch => .construction
  | .polynomialNotIrreducible => .construction
  | .capacityExceeded => .construction
  | .divisionByZero => .arithmetic
  | .inversionOfZero => .arithmetic
  | .illegalCommand => .interface
  | .noContext => .interface
  | .noTable => .interface
  | .operandOutOfRange => .interface
  | .indexOutOfRange => .interface

/-- `STATUS`: 0x00 is `Ok` (rules R64, R200). -/
def Response.status : Response → BitVec 8
  | .ok _ => 0x00#8
  | .err code => code.code

/-- The 128-bit R of the packet: the result, or 0 on an error (rules R64, R203). -/
def Response.result : Response → Wide
  | .ok r => r
  | .err _ => 0#128

/-- The response packet: `S0[7:0] = STATUS`, `S0[63:8] = 0`, `R = (R_HI, R_LO)` (rule R64). -/
def Response.toPacket (r : Response) : ResponsePacket where
  s0 := r.status.setWidth 64
  rLo := r.result.extractLsb' 0 64
  rHi := r.result.extractLsb' 64 64

/-- The 192-bit value `{R_HI, R_LO, S0}`, `S0` least significant (20_memory.md rule R47). -/
def ResponsePacket.toNat (p : ResponsePacket) : Nat := p.s0.toNat + (p.rLo.toNat <<< 64) + (p.rHi.toNat <<< 128)

/-- The 24 bytes of a serialised response, `S0` first, little-endian (20_memory.md rule R47). -/
def ResponsePacket.toBytes (p : ResponsePacket) : List Byte :=
  wordBytes p.s0 ++ wordBytes p.rLo ++ wordBytes p.rHi

end Sys2Proof.Machine
end

