-- ==== Sys2Proof/Machine/Step.lean ====
section
/-! DEFINITION. One step of the engine: take the host's next input and complete it (20_memory.md rules R45, R46,
R51). -/

namespace Sys2Proof.Machine

/-- Execute one packet: an illegal one is answered `IllegalCommand` (30_encoding.md rule R68), any other is its
command's meaning (rule R74). -/
def runPacket (p : Packet) (s : State) : Host.Outcome State Fault Refusal :=
  match decode p with
  | .error _ => answerIllegal s
  | .ok i => exec i s

/-- One step. With nothing presented the engine stays idle and its state survives (60_exceptions.md rule R220);
an asserted reset takes effect (70_reset_and_hazards.md rule R230); a packet is executed whole, with one response
(rules R46, R51). -/
def step (s : State) : Host.Outcome State Fault Refusal :=
  match takeInput s with
  | none => .next s
  | some (.reset, t) => .next t.assertReset
  | some (.packet p, t) => runPacket p t

/-- `s` with the instruction of a table word presented as the packet the engine takes next (log 5). -/
def State.withFetchWord (s : State) (nbits w : Nat) : State := present (Packet.ofTableWord nbits w) s

end Sys2Proof.Machine
end

