-- ==== Sys2Proof/Machine/Assembler.lean ====
section
/-! DEFINITION. The assembler syntax (30_encoding.md rules R72, R73): one line of text to one packet. It is part of
the spec's rendering, not of the engine: no step calls it. What rule R72 leaves open of the text (blanks, the case
of hexadecimal digits, a number too large for its field, a line with no command on it) is log 14. -/

namespace Sys2Proof.Machine

/-- Why a line is no command. -/
inductive AsmError where
  /-- no row of rule R66 has this mnemonic -/
  | unknownMnemonic
  /-- the operands are not of a form rule R72 gives the mnemonic -/
  | wrongOperands
  /-- an operand is no decimal, `0x` or `0b` number -/
  | badNumber
  /-- a number does not fit its field or word: "an assembler error" -/
  | tooLarge
deriving DecidableEq, Repr

/-- The mnemonic of a row (rule R66). -/
def mnemonicOf : Op → String
  | .padd => "PADD"
  | .pclmul => "PCLMUL"
  | .preduce => "PREDUCE"
  | .pmodmul => "PMODMUL"
  | .pmodexp => "PMODEXP"
  | .isirred => "ISIRRED"
  | .selcanon => "SELCANON"
  | .create => "CREATE"
  | .findgen => "FINDGEN"
  | .rdalog => "RDALOG"
  | .rdlog => "RDLOG"
  | .fadd => "FADD"
  | .fmul => "FMUL"
  | .fdiv => "FDIV"
  | .finv => "FINV"
  | .card => "CARD"
  | .char => "CHAR"
  | .deg => "DEG"

/-! ### Text -/

/-- A blank or a tab. -/
def isBlank (c : Char) : Bool := c == ' ' || c == '\t'

/-- Without the blanks at both ends. -/
def trimBlanks (t : List Char) : List Char := ((t.dropWhile isBlank).reverse.dropWhile isBlank).reverse

/-- The pieces between commas. -/
def splitCommas : List Char → List (List Char)
  | [] => [[]]
  | c :: rest =>
    match splitCommas rest with
    | [] => [[c]]
    | piece :: pieces => if c = ',' then [] :: piece :: pieces else (c :: piece) :: pieces

/-- The value of a digit below `base`. -/
def digitValue (base : Nat) (c : Char) : Option Nat :=
  let n := c.toNat
  let d := if 48 ≤ n ∧ n ≤ 57 then n - 48 else if 97 ≤ n ∧ n ≤ 102 then n - 87
    else if 65 ≤ n ∧ n ≤ 70 then n - 55 else base
  if d < base then some d else none

/-- The value of a row of digits after `acc`. -/
def digitsValue (base : Nat) : Nat → List Char → Option Nat
  | acc, [] => some acc
  | acc, c :: rest =>
    match digitValue base c with
    | none => none
    | some d => digitsValue base (acc * base + d) rest

/-- "Numbers are decimal, or hexadecimal with `0x`, or binary with `0b`" (rule R72). -/
def readNumber (t : List Char) : Except AsmError Nat :=
  let value :=
    if t.length ≤ 2 then (if t = [] then none else digitsValue 10 0 t)
    else if t.take 2 = ['0', 'x'] then digitsValue 16 0 (t.drop 2)
    else if t.take 2 = ['0', 'b'] then digitsValue 2 0 (t.drop 2)
    else digitsValue 10 0 t
  match value with
  | none => .error .badNumber
  | some n => .ok n

/-- A number of at most `width` bits. -/
def readBits (width : Nat) (t : List Char) : Except AsmError (BitVec width) := do
  let n ← readNumber t
  if n < 2 ^ width then return BitVec.ofNat width n else throw .tooLarge

/-- "`m` may be any number 0 to 127; a larger one cannot be encoded and is an assembler error" (rule R72). -/
def readDegree (t : List Char) : Except AsmError Nat := do
  let n ← readNumber t
  if degreeEncodable n then return n else throw .tooLarge

/-- `AUTO`, `DIRECT` or `TABLE` (rule R72). -/
def readHint (t : List Char) : Except AsmError Hint :=
  if t = "AUTO".toList then .ok .auto
  else if t = "DIRECT".toList then .ok .direct
  else if t = "TABLE".toList then .ok .table
  else .error .wrongOperands

/-! ### Lines (rule R72) -/

/-- The command of a mnemonic and its operands, in the forms of rule R72. -/
def readOperands (o : Op) (operands : List (List Char)) : Except AsmError Instr :=
  match o, operands with
  | .padd, [a, b] => do return .padd (← readBits 64 a) (← readBits 64 b)
  | .pclmul, [a, b] => do return .pclmul (← readBits 64 a) (← readBits 64 b)
  | .preduce, [wide, modulus, m] => do
    return .preduce (← readBits 128 wide) (← readBits 64 modulus) (← readDegree m)
  | .pmodmul, [a, b, modulus, m] => do
    return .pmodmul (← readBits 64 a) (← readBits 64 b) (← readBits 64 modulus) (← readDegree m)
  | .pmodexp, [base, exponent, modulus, m] => do
    return .pmodexp (← readBits 64 base) (← readBits 64 exponent) (← readBits 64 modulus) (← readDegree m)
  | .isirred, [poly, m] => do return .isirred (← readBits 64 poly) (← readDegree m)
  | .selcanon, [m] => do return .selcanon (← readDegree m)
  | .create, [m, modulus, hint] => do
    let n ← readDegree m
    let h ← readHint hint
    if modulus = ['-'] then return .create n none h false
    else return .create n (some (← readBits 64 modulus)) h false
  | .create, [m, modulus, hint, fb] => do
    let n ← readDegree m
    let h ← readHint hint
    if fb = "FB".toList then return .create n (some (← readBits 64 modulus)) h true else throw .wrongOperands
  | .findgen, [] => .ok .findgen
  | .rdalog, [i] => do return .rdalog (← readBits 64 i)
  | .rdlog, [a] => do return .rdlog (← readBits 64 a)
  | .fadd, [a, b] => do return .fadd (← readBits 64 a) (← readBits 64 b)
  | .fmul, [a, b] => do return .fmul (← readBits 64 a) (← readBits 64 b)
  | .fdiv, [a, b] => do return .fdiv (← readBits 64 a) (← readBits 64 b)
  | .finv, [a] => do return .finv (← readBits 64 a)
  | .card, [] => .ok .card
  | .char, [] => .ok .char
  | .deg, [] => .ok .deg
  | _, _ => .error .wrongOperands

/-- One line: "the mnemonic in capitals, then the operands separated by commas"; "A line's comment starts with
`;`" (rule R72). DESIGN CHOICE (log 14): a line that is empty, blank or nothing but a comment is read as no command;
rules R72 and R73 do not say whether a program may hold one ("Every line is one command"). -/
def readLine (line : List Char) : Except AsmError (Option Instr) :=
  let text := trimBlanks (line.takeWhile (· != ';'))
  let name := text.takeWhile (fun c => !isBlank c)
  let rest := trimBlanks (text.dropWhile (fun c => !isBlank c))
  if text = [] then .ok none
  else
    match Op.all.find? (fun o => (mnemonicOf o).toList == name) with
    | none => .error .unknownMnemonic
    | some o =>
      match readOperands o (if rest = [] then [] else (splitCommas rest).map trimBlanks) with
      | .error e => .error e
      | .ok i => .ok (some i)

/-- "a program is a list of lines" (rule R72): the packets of its commands, in order; the first error if a line
has one. A line with no command on it gives no packet (log 14). -/
def assemble : List (List Char) → Except AsmError (List Packet)
  | [] => .ok []
  | line :: rest =>
    match readLine line, assemble rest with
    | .error e, _ => .error e
    | .ok _, .error e => .error e
    | .ok none, .ok packets => .ok packets
    | .ok (some i), .ok packets => .ok (encode i :: packets)

end Sys2Proof.Machine
end

