-- ==== Sys2Proof/Safety.lean ====
section
/-! DEFINITION. What the claims are stated in: the invariants the spec gives the state (10_state.md rules R25 to
R28, R33), what two states must share for the engine to behave alike (R13, R36), and which command can answer
which error (60_exceptions.md rule R201). -/

namespace Sys2Proof.Machine

/-! ### Invariants -/

/-- The model's own invariant of the table memories: their canonical form. -/
abbrev State.tablesCanonical (s : State) : Prop := Table.wf s.antilog = true ∧ Table.wf s.log = true

/-- Rules R25, R26: `1 ≤ CTX_M` (63 is the largest value of 6 bits), `deg(CTX_MOD) = CTX_M` and
`IsIrreducible(CTX_MOD, CTX_M)`. -/
abbrev State.descriptorOk (s : State) : Prop :=
  1 ≤ s.m ∧ deg s.modulus = (s.m : Int) ∧ isIrreducible s.modulus s.m = true

/-- Rule R28: `CTX_GEN = FindGenerator(CTX_MOD, CTX_M)`, and it is `ANTILOG[1 mod order]`. -/
abbrev State.generatorOk (s : State) : Prop :=
  searchGenerator s.modulus s.m = some s.ctxGen.toNat ∧ s.antilog.lookup (1 % s.order) = some s.ctxGen.toNat

/-- Rule R33 (a) and (b): `ANTILOG[0] = 1`, and `ANTILOG[i] = ModExponentiate(CTX_GEN, i, CTX_MOD, CTX_M)`. -/
abbrev State.antilogPowers (s : State) : Prop :=
  s.antilog.lookup 0 = some 1
    ∧ ∀ i < s.order, s.antilog.lookup i = some (modExponentiate s.ctxGen.toNat i s.modulus s.m)

/-- Rules R31, R32: an entry of `ANTILOG` in use lies in [1, 2^m), an entry of `LOG` in use in [0, order). -/
abbrev State.entriesInRange (s : State) : Prop :=
  (∀ i < s.order, (s.antilog.lookup i).any (fun v => decide (1 ≤ v ∧ v < 2 ^ s.m)) = true)
    ∧ ∀ a < 2 ^ s.m, 1 ≤ a → (s.log.lookup a).any (fun i => decide (i < s.order)) = true

/-- Rule R33 (c), (d), (e): no two exponents share an element, `LOG[ANTILOG[i]] = i` and `ANTILOG[LOG[a]] = a`. -/
abbrev State.tablesInverse (s : State) : Prop :=
  (∀ i < s.order, ∀ j < s.order, s.antilog.lookup i = s.antilog.lookup j → i = j)
    ∧ (∀ i < s.order, (s.antilog.lookup i).bind s.log.lookup = some i)
    ∧ ∀ a < 2 ^ s.m, 1 ≤ a → (s.log.lookup a).bind s.antilog.lookup = some a

/-- Rules R27, R28, R33: what holds of a Table context. -/
abbrev State.tablesOk (s : State) : Prop :=
  s.m ≤ s.tableCeiling.val ∧ s.generatorOk ∧ s.antilogPowers ∧ s.entriesInRange ∧ s.tablesInverse

/-- The invariant of the state: canonical tables, the descriptor's invariant when there is a context, the table
invariants when it is a Table context (rules R25 to R28, R33). -/
abbrev State.Inv (s : State) : Prop :=
  s.tablesCanonical ∧ (s.ctxValid = true → s.descriptorOk)
    ∧ (s.ctxValid = true → s.ctxStrat = .table → s.tablesOk)

/-! ### What a command can depend on -/

/-- The two states have the same architectural state and the same `TABLE_CEILING`: all that rule R13 lets a result
depend on. The ports and the count of resets may differ. -/
abbrev State.sameArchitecture (s t : State) : Prop :=
  s.ctxValid = t.ctxValid ∧ s.ctxM = t.ctxM ∧ s.ctxMod = t.ctxMod ∧ s.ctxStrat = t.ctxStrat ∧ s.ctxGen = t.ctxGen
    ∧ s.antilog = t.antilog ∧ s.log = t.log ∧ s.tableCeiling = t.tableCeiling

/-- The two states agree on the table entries in use (rules R31, R32). -/
abbrev State.sameEntries (s t : State) : Prop :=
  (∀ i < s.order, s.antilog.lookup i = t.antilog.lookup i) ∧ ∀ a < 2 ^ s.m, 1 ≤ a → s.log.lookup a = t.log.lookup a

/-- The two states agree on all that a command can read: the context registers only when there is a context, the
generator and the table entries in use only when it is a Table context (rules R28, R31, R32, R36). -/
abbrev State.sameReadable (s t : State) : Prop :=
  s.ctxValid = t.ctxValid ∧ s.tableCeiling = t.tableCeiling
    ∧ (s.ctxValid = true → s.ctxM = t.ctxM ∧ s.ctxMod = t.ctxMod ∧ s.ctxStrat = t.ctxStrat
        ∧ (s.ctxStrat = .table → s.ctxGen = t.ctxGen ∧ s.sameEntries t))

/-! ### Which command can answer which error -/

/-- The errors in the command's row of rule R201, without `IllegalCommand`, which decode answers before the command
is known. -/
def possibleErrors : Instr → List ErrorCode
  | .padd _ _ => []
  | .pclmul _ _ => []
  | .preduce _ _ _ => [.degreeOutOfRange, .polynomialDegreeMismatch]
  | .pmodmul _ _ _ _ => [.degreeOutOfRange, .polynomialDegreeMismatch]
  | .pmodexp _ _ _ _ => [.degreeOutOfRange, .polynomialDegreeMismatch]
  | .isirred _ _ => [.degreeOutOfRange, .polynomialDegreeMismatch]
  | .selcanon _ => [.degreeOutOfRange]
  | .create _ _ _ _ => [.degreeOutOfRange, .polynomialDegreeMismatch, .polynomialNotIrreducible, .capacityExceeded]
  | .findgen => [.noContext]
  | .rdalog _ => [.noContext, .noTable, .indexOutOfRange]
  | .rdlog _ => [.noContext, .noTable, .operandOutOfRange]
  | .fadd _ _ => [.noContext, .operandOutOfRange]
  | .fmul _ _ => [.noContext, .operandOutOfRange]
  | .fdiv _ _ => [.divisionByZero, .noContext, .operandOutOfRange]
  | .finv _ => [.inversionOfZero, .noContext, .operandOutOfRange]
  | .card => [.noContext]
  | .char => [.noContext]
  | .deg => [.noContext]

/-- A context command: it reads the context, so it needs one (00_scope.md rule R15, 60_exceptions.md rule R206).
`CREATE` needs none. -/
def needsContext (i : Instr) : Bool := (possibleErrors i).contains .noContext

/-- The context-free commands (00_scope.md rule R15, 70_reset_and_hazards.md rule R233). -/
def isContextFree : Instr → Bool
  | .padd _ _ | .pclmul _ _ | .preduce _ _ _ | .pmodmul _ _ _ _ | .pmodexp _ _ _ _ | .isirred _ _ | .selcanon _ => true
  | .create _ _ _ _ | .findgen | .rdalog _ | .rdlog _ | .fadd _ _ | .fmul _ _ | .fdiv _ _ | .finv _ | .card | .char
  | .deg => false

/-- The command is a `CREATE`. -/
def isCreate : Instr → Bool
  | .create _ _ _ _ => true
  | _ => false

/-! ### Operand words (30_encoding.md rule R67) -/

/-- The rows with an operand in word A; `CREATE` has one when `HASMOD = 1` (rules R67, R69). -/
def usesA (hasmod : BitVec 1) : Op → Bool
  | .padd | .pclmul | .preduce | .pmodmul | .pmodexp | .isirred | .rdalog | .rdlog | .fadd | .fmul | .fdiv | .finv => true
  | .create => hasmod == 1#1
  | .selcanon | .findgen | .card | .char | .deg => false

/-- The rows with an operand in word B (rule R67). -/
def usesB : Op → Bool
  | .padd | .pclmul | .preduce | .pmodmul | .pmodexp | .fadd | .fmul | .fdiv => true
  | .isirred | .selcanon | .create | .findgen | .rdalog | .rdlog | .finv | .card | .char | .deg => false

/-- The rows with an operand in word C (rule R67). Word D is used by no row (rule R61). -/
def usesC : Op → Bool
  | .preduce | .pmodmul | .pmodexp => true
  | .padd | .pclmul | .isirred | .selcanon | .create | .findgen | .rdalog | .rdlog | .fadd | .fmul | .fdiv | .finv
  | .card | .char | .deg => false

/-! ### Powers -/

/-- The e-th power by repeated multiplication: "the e-th power meaning e − 1 multiplications and the zeroth power 1"
(40_ring.md rule R108), every product taken modulo f. -/
def modPower (base f : Poly) (m : Nat) : Nat → Poly
  | 0 => 1
  | e + 1 => modMultiply (modPower base f m e) base f m

/-! ### The modulus CREATE builds on (43_context.md rule R170) -/

/-- `f` is the first irreducible candidate of degree m (41_checker.md rule R123). -/
def isCanonical (f : Poly) (m : Nat) : Prop :=
  ∃ before after, candidates m = before ++ f :: after ∧ (∀ g ∈ before, isIrreducible g m = false)
    ∧ isIrreducible f m = true

/-- `f` is the modulus `CREATE` builds on: the supplied one where it has degree m and is irreducible, and the canonical
one where none is supplied, or where the supplied one has degree m, is reducible and fallback is requested. -/
def choosesModulus (m : Nat) (modulus : Option Word) (fb : Bool) (f : Poly) : Prop :=
  match modulus with
  | none => isCanonical f m
  | some a =>
    deg a.toNat = (m : Int)
      ∧ ((isIrreducible a.toNat m = true ∧ f = a.toNat)
          ∨ (isIrreducible a.toNat m = false ∧ fb = true ∧ isCanonical f m))

end Sys2Proof.Machine
end

