-- ==== Sys2Proof/Certificates/Slice0/Obligations.lean ====
section
/-! DEFINITION. The statements about the model, from the spec's numbered rules. A command's answer is written
`exec i s = .next (s.respond r)`: the response `r` is delivered and nothing else of the state changes. -/

open Sys2Proof Sys2Proof.Machine

/-! ## Encoding -/

/-- 30_encoding.md rules R60 to R67 and R74: the decoder gives back every command that can be written, from its words
and from the bytes of a stream. -/
def Obligations.DecodeOfEncodeIsTheCommand : Prop :=
  ∀ i : Instr, i.wellFormed = true →
    decode (encode i) = .ok i ∧ ∀ rest, decodeBytes ((encode i).toBytes ++ rest) = .ok (i, rest)

/-- Rules R62, R67: whatever decodes is a well-formed command, and its encoding has the packet's own header and decodes
to the same command. -/
def Obligations.DecodedCommandKeepsItsHeader : Prop :=
  ∀ (p : Packet) (i : Instr), decode p = .ok i →
    i.wellFormed = true ∧ (encode i).w0 = p.w0 ∧ decode (encode i) = .ok i

/-- Rule R68: a packet is illegal exactly when (a), (b), (c), (d) or (e) holds, equivalently when no row matches or the
row is CREATE and STRAT = 3; it is answered IllegalCommand with no other effect and the engine is ready for the next
packet; an out-of-range MDEG decodes and its command answers DegreeOutOfRange; FB has no effect when HASMOD = 0.
`cmdPort` is the model's form of the command port (log 5). -/
def Obligations.IllegalPacketsAreAnsweredIllegalCommand : Prop :=
  (∀ p : Packet,
    ((∃ e, decode p = .error e) ↔
      ((∀ o : Op, p.opc ≠ o.opcode)
        ∨ (p.reserved15 ≠ 0#1 ∨ p.reservedHigh ≠ 0#44)
        ∨ (∃ o : Op, p.opc = o.opcode ∧ o.usesDegree = false ∧ p.mdeg ≠ 0#7)
        ∨ (∃ o : Op, p.opc = o.opcode ∧ o ≠ .create ∧ (p.strat ≠ 0#2 ∨ p.hasmod ≠ 0#1 ∨ p.fb ≠ 0#1))
        ∨ (p.opc = Op.create.opcode ∧ p.strat = 3#2)))
    ∧ ((∃ e, decode p = .error e) ↔
        ((∀ o : Op, p.w0 &&& o.mask ≠ o.pattern)
          ∨ (p.w0 &&& Op.create.mask = Op.create.pattern ∧ p.strat = 3#2))))
  ∧ (∀ (s : State) (p : Packet) (rest : List HostInput), s.cmdPort = .packet p :: rest →
      (∃ e, decode p = .error e) →
      step s = .next (State.respond { s with cmdPort := rest } (.err .illegalCommand)))
  ∧ (∀ (p : Packet) (i : Instr) (s : State), decode p = .ok i → i.op.usesDegree = true →
      p.degree = 0 ∨ 63 < p.degree → exec i s = .next (s.respond (.err .degreeOutOfRange)))
  ∧ ∀ (m : Nat) (hint : Hint) (s : State), exec (.create m none hint true) s = exec (.create m none hint false) s

/-- Rule R69: two packets that differ only in words their row does not use decode alike; word D is used by none, and A
of CREATE is not used when HASMOD = 0. -/
def Obligations.UnusedWordsAreIgnored : Prop :=
  ∀ (p q : Packet), p.w0 = q.w0 →
    (∀ o, findRow p.w0 = some o → (usesA p.hasmod o = true → p.w1 = q.w1) ∧ (usesB o = true → p.w2 = q.w2)
      ∧ (usesC o = true → p.w3 = q.w3)) →
    decode p = decode q

/-- 30_encoding.md rule R75: the worked encodings, from line to words and from words to command. -/
def Obligations.WorkedEncodingsAssembleAndDecode : Prop :=
  assemble ["PADD 0b0101, 0b0011".toList, "PMODMUL 0x57, 0x83, 0x11B, 8".toList, "PREDUCE 0x2B79, 0x11B, 8".toList,
      "ISIRRED 0x13, 4".toList, "SELCANON 63".toList, "CREATE 4, 0x13, TABLE".toList,
      "CREATE 8, 0x11D, DIRECT".toList, "CREATE 30, -, TABLE".toList, "CREATE 8, 0x101, AUTO, FB".toList,
      "FMUL 7, 7".toList, "DEG".toList]
    = .ok [⟨0x10#64, 0x5#64, 0x3#64, 0#64, 0#64⟩, ⟨0x813#64, 0x57#64, 0x83#64, 0x11B#64, 0#64⟩,
        ⟨0x812#64, 0x2B79#64, 0#64, 0x11B#64, 0#64⟩, ⟨0x420#64, 0x13#64, 0#64, 0#64, 0#64⟩,
        ⟨0x3F21#64, 0#64, 0#64, 0#64, 0#64⟩, ⟨0x60430#64, 0x13#64, 0#64, 0#64, 0#64⟩,
        ⟨0x50830#64, 0x11D#64, 0#64, 0#64, 0#64⟩, ⟨0x21E30#64, 0#64, 0#64, 0#64, 0#64⟩,
        ⟨0xC0830#64, 0x101#64, 0#64, 0#64, 0#64⟩, ⟨0x41#64, 0x7#64, 0x7#64, 0#64, 0#64⟩,
        ⟨0x52#64, 0#64, 0#64, 0#64, 0#64⟩]
  ∧ decode ⟨0x812#64, 0x2B79#64, 0#64, 0x11B#64, 0#64⟩ = .ok (.preduce 0x2B79#128 0x11B#64 8)
  ∧ decode ⟨0x60430#64, 0x13#64, 0#64, 0#64, 0#64⟩ = .ok (.create 4 (some 0x13#64) .table false)
  ∧ decode ⟨0xC0830#64, 0x101#64, 0#64, 0#64, 0#64⟩ = .ok (.create 8 (some 0x101#64) .auto true)
  ∧ decode ⟨0x41#64, 0x7#64, 0x7#64, 0#64, 0#64⟩ = .ok (.fmul 7#64 7#64)

/-- 20_memory.md rule R47: a serialised packet is little-endian, byte k being bits [8k+7 : 8k] of the packet's value;
the opcode byte is first; the bytes give the packet back. The same of a response packet. -/
def Obligations.SerialisedPacketsAreLittleEndian : Prop :=
  (∀ p : Packet, p.toBytes.length = 40
    ∧ (∀ k < 40, p.toBytes[k]? = some (BitVec.ofNat 8 (p.toNat >>> (8 * k))))
    ∧ p.toBytes[0]? = some p.opc
    ∧ Packet.ofNat (bytesValue p.toBytes) = p)
  ∧ ∀ r : ResponsePacket, r.toBytes.length = 24
    ∧ ∀ k < 24, r.toBytes[k]? = some (BitVec.ofNat 8 (r.toNat >>> (8 * k)))

/-! ## One step -/

/-- 20_memory.md rules R45, R51: a packet that decodes is executed as its command, with the packet taken off the port
and nothing else changed before; a table word presented to the engine is executed as the command it decodes to. The
port as a list of inputs is the model's choice (log 5). -/
def Obligations.StepExecutesTheDecodedCommand : Prop :=
  (∀ (s : State) (p : Packet) (rest : List HostInput) (i : Instr), s.cmdPort = .packet p :: rest →
    decode p = .ok i → step s = exec i { s with cmdPort := rest })
  ∧ ∀ (s : State) (nbits w : Nat) (i : Instr), decodeTableWord nbits w = some i →
    step (s.withFetchWord nbits w) = exec i s

/-- Rules R45, R46, R220: a packet is taken and answered with one response; a reset and an idle step deliver none; an
idle step leaves the state as it is. The list of inputs and its idle step are the model's choice (log 5), and so is that
an asserted reset leaves the further inputs and the delivered responses (log 7). -/
def Obligations.EachPacketGetsOneResponse : Prop :=
  ∀ s t : State, step s = .next t →
    (s.cmdPort = [] → t = s)
    ∧ (∀ rest, s.cmdPort = .reset :: rest → t.cmdPort = rest ∧ t.respPort = s.respPort)
    ∧ ∀ p rest, s.cmdPort = .packet p :: rest → t.cmdPort = rest ∧ ∃ r, t.respPort = s.respPort ++ [r]

/-- 70_reset_and_hazards.md rule R230: reset clears CTX_VALID; the engine then answers NoContext to every context
command. Nothing is said of the registers and entries it leaves unspecified. That the further inputs, the delivered
responses and the ceiling survive is the model's choice (log 7). -/
def Obligations.ResetEndsTheContext : Prop :=
  (∀ c : Fin 64, (State.resetWith c).ctxValid = false)
  ∧ ∀ (s : State) (rest : List HostInput), s.cmdPort = .reset :: rest →
      ∃ t, step s = .next t ∧ t.ctxValid = false ∧ t.cmdPort = rest ∧ t.respPort = s.respPort
        ∧ t.tableCeiling = s.tableCeiling
        ∧ ∀ i, needsContext i = true → exec i t = .next (t.respond (.err .noContext))

/-! ## The ring commands -/

/-- 40_ring.md rule R101: PADD is the xor of all 64 bits, total; its header is 0x10 alone. -/
def Obligations.PaddIsXor : Prop :=
  (∀ (p : Packet) (a b : Word), decode p = .ok (.padd a b) ↔ p.w0 = 0x10#64 ∧ p.w1 = a ∧ p.w2 = b)
  ∧ ∀ (a b : Word) (s : State), exec (.padd a b) s = .next (s.respond (.ok ((a ^^^ b).setWidth 128)))

/-- Rules R102, R103: PCLMUL is total; bit k of its result is the xor over all i + j = k of a[i] and b[j]; bit 127 is
always 0. -/
def Obligations.PclmulIsTheCarrylessProduct : Prop :=
  ∀ (a b : Word) (s : State), ∃ r : Wide, exec (.pclmul a b) s = .next (s.respond (.ok r))
    ∧ (∀ k, r.getLsbD k = decide ((List.range (k + 1)).countP (fun i => a.getLsbD i && b.getLsbD (k - i)) % 2 = 1))
    ∧ r.getLsbD 127 = false

/-- Rule R102: the laws of the carry-less product. -/
def Obligations.CarrylessProductLaws : Prop :=
  (∀ a b k, (clmul a b).testBit k
      = decide ((List.range (k + 1)).countP (fun i => Nat.testBit a i && Nat.testBit b (k - i)) % 2 = 1))
  ∧ (∀ a b, clmul a b = clmul b a)
  ∧ (∀ a b c, clmul (clmul a b) c = clmul a (clmul b c))
  ∧ (∀ a b c, clmul a (b ^^^ c) = clmul a b ^^^ clmul a c)
  ∧ (∀ a, clmul a 1 = a) ∧ (∀ a, clmul a 0 = 0)
  ∧ (∀ a b, a ≠ 0 → b ≠ 0 → deg (clmul a b) = deg a + deg b)
  ∧ ∀ a b : Word, clmul a.toNat b.toNat < 2 ^ 127

/-- Rule R104: Reduce gives the one remainder below 2^m, that of PolyDivMod, within deg(w) − m + 1 steps; it keeps values
below 2^m; it is linear. -/
def Obligations.ReduceIsTheRemainder : Prop :=
  ∀ (f m : Nat), deg f = (m : Int) →
    (∀ w, reduce w f m < 2 ^ m ∧ (∃ q, w = clmul q f ^^^ reduce w f m)
      ∧ (∀ q r, r < 2 ^ m → w = clmul q f ^^^ r → r = reduce w f m)
      ∧ reduce w f m = (polyDivMod w f).2
      ∧ ∀ steps : Nat, deg w - m + 1 ≤ (steps : Int) → reduceLoop f m steps w = reduce w f m)
    ∧ (∀ w < 2 ^ m, reduce w f m = w)
    ∧ ∀ u v, reduce (u ^^^ v) f m = reduce u f m ^^^ reduce v f m

/-- Rule R105: PREDUCE answers the remainder of all 128 bits of wide by any modulus whose top bit is m. -/
def Obligations.PreduceAnswersTheRemainder : Prop :=
  ∀ (wide : Wide) (modulus : Word) (m : Nat) (s : State), 1 ≤ m → m ≤ 63 → deg modulus.toNat = (m : Int) →
    ∃ q r : Nat, exec (.preduce wide modulus m) s = .next (s.respond (.ok (BitVec.ofNat 128 r)))
      ∧ r < 2 ^ m ∧ wide.toNat = clmul q modulus.toNat ^^^ r

/-- Rule R106: ModMultiply is the product in GF(2)[x]/(modulus), for any modulus whose top bit is m. -/
def Obligations.ModMultiplyLaws : Prop :=
  ∀ (f m : Nat), deg f = (m : Int) →
    (∀ a b, modMultiply a b f m = reduce (clmul a b) f m)
    ∧ (∀ a b, modMultiply a b f m = modMultiply (reduce a f m) (reduce b f m) f m)
    ∧ (∀ a b, modMultiply a b f m = modMultiply b a f m)
    ∧ (∀ a b c, modMultiply (modMultiply a b f m) c f m = modMultiply a (modMultiply b c f m) f m)
    ∧ (∀ a b c, modMultiply a (b ^^^ c) f m = modMultiply a b f m ^^^ modMultiply a c f m)
    ∧ ∀ a, modMultiply a 1 f m = reduce a f m

/-- Rule R107: PMODMUL answers the product's remainder; its operands may lie at or above 2^m. -/
def Obligations.PmodmulAnswersTheProductsRemainder : Prop :=
  ∀ (a b modulus : Word) (m : Nat) (s : State), 1 ≤ m → m ≤ 63 → deg modulus.toNat = (m : Int) →
    ∃ q r : Nat, exec (.pmodmul a b modulus m) s = .next (s.respond (.ok (BitVec.ofNat 128 r)))
      ∧ r < 2 ^ m ∧ clmul a.toNat b.toNat = clmul q modulus.toNat ^^^ r

/-- Rules R108, R109: PMODEXP answers the e-th power, e − 1 multiplications, with the zeroth power 1. -/
def Obligations.PmodexpAnswersThePower : Prop :=
  ∀ (base exponent modulus : Word) (m : Nat) (s : State), 1 ≤ m → m ≤ 63 → deg modulus.toNat = (m : Int) →
    exec (.pmodexp base exponent modulus m) s
      = .next (s.respond (.ok (BitVec.ofNat 128 (modPower base.toNat modulus.toNat m exponent.toNat))))

/-- Rules R110, R111: the degree check and, after it, the top-bit check, in every command that makes them; the top-bit
check fails for 0 and for a polynomial with a bit above m. -/
def Obligations.DegreeAndTopBitChecks : Prop :=
  (∀ (wide : Wide) (a b p : Word) (m : Nat) (s : State),
    (m = 0 ∨ 63 < m →
      ∀ i ∈ [Instr.preduce wide p m, .pmodmul a b p m, .pmodexp a b p m, .isirred p m, .selcanon m],
        exec i s = .next (s.respond (.err .degreeOutOfRange)))
    ∧ (1 ≤ m → m ≤ 63 → deg p.toNat ≠ (m : Int) →
      ∀ i ∈ [Instr.preduce wide p m, .pmodmul a b p m, .pmodexp a b p m, .isirred p m],
        exec i s = .next (s.respond (.err .polynomialDegreeMismatch))))
  ∧ (∀ (modulus : Option Word) (hint : Hint) (fb : Bool) (m : Nat) (s : State), m = 0 ∨ 63 < m →
      exec (.create m modulus hint fb) s = .next (s.respond (.err .degreeOutOfRange)))
  ∧ (∀ (p : Word) (hint : Hint) (fb : Bool) (m : Nat) (s : State), 1 ≤ m → m ≤ 63 → deg p.toNat ≠ (m : Int) →
      exec (.create m (some p) hint fb) s = .next (s.respond (.err .polynomialDegreeMismatch)))
  ∧ (∀ m : Nat, deg 0 ≠ (m : Int))
  ∧ ∀ (p m j : Nat), m < j → p.testBit j = true → deg p ≠ (m : Int)

/-! ## The checker -/

/-- 41_checker.md rule R120: ISIRRED answers 1 exactly when the polynomial has no factorisation into two polynomials
of positive degree. That every irreducible polynomial passes is the spec's general knowledge G3. -/
def Obligations.IsirredDecidesIrreducibility : Prop :=
  ∀ (poly : Word) (m : Nat) (s : State), 1 ≤ m → m ≤ 63 → deg poly.toNat = (m : Int) →
    ∃ r : Wide, exec (.isirred poly m) s = .next (s.respond (.ok r)) ∧ (r = 0#128 ∨ r = 1#128)
      ∧ (r = 1#128 ↔ ∀ a b : Nat, poly.toNat = clmul a b → deg a = 0 ∨ deg b = 0)

/-- Rule R122: the candidates of a degree, each exactly once, trinomials before pentanomials and each kind in rising
integer value. -/
def Obligations.CandidatesInCanonicalOrder : Prop :=
  candidates 1 = [0b11]
  ∧ ∀ m, 2 ≤ m → ∃ tri penta, candidates m = tri ++ penta
    ∧ tri = (List.range' 1 (m - 1)).map (fun k => 2 ^ m + 2 ^ k + 1)
    ∧ (∀ f, f ∈ penta ↔ ∃ a b c, a < m ∧ b < a ∧ c < b ∧ 1 ≤ c ∧ f = 2 ^ m + 2 ^ a + 2 ^ b + 2 ^ c + 1)
    ∧ tri.Pairwise (· < ·) ∧ penta.Pairwise (· < ·) ∧ (m < 4 → penta = [])

/-- Rules R123 to R125: SELCANON answers the first irreducible candidate, and the search succeeds for every legal
degree. -/
def Obligations.SelcanonAnswersTheFirstIrreducibleCandidate : Prop :=
  ∀ (m : Nat) (s : State), 1 ≤ m → m ≤ 63 →
    ∃ f, isCanonical f m ∧ deg f = (m : Int) ∧ exec (.selcanon m) s = .next (s.respond (.ok (BitVec.ofNat 128 f)))

/-! ## The tables -/

/-- 42_table.md rule R140: the factor table holds exactly the primes that divide 2^m − 1. -/
def Obligations.FactorTableIsThePrimeFactors : Prop :=
  ∀ m, 1 ≤ m → m ≤ 63 → ∀ p, p ∈ orderFactors m ↔ Nat.Prime p ∧ p ∣ 2 ^ m - 1

/-- Rule R149: in a Table context FINDGEN answers CTX_GEN, which is ANTILOG[1 mod order]. -/
def Obligations.FindgenAnswersCtxGenInTableContext : Prop :=
  ∀ s : State, s.Inv → s.ctxValid = true → s.ctxStrat = .table →
    exec .findgen s = .next (s.respond (.ok (s.ctxGen.setWidth 128)))
      ∧ s.antilog.lookup (1 % s.order) = some s.ctxGen.toNat

/-- Rules R141, R149: in every context, Direct or Table, FINDGEN answers an element whose powers are all the nonzero
elements: 1 when m = 1, else the first such one from 2 on. -/
def Obligations.FindgenAnswersTheFirstGenerator : Prop :=
  ∀ s : State, s.Inv → s.ctxValid = true →
    ∃ g, exec .findgen s = .next (s.respond (.ok (BitVec.ofNat 128 g))) ∧ 1 ≤ g ∧ g < 2 ^ s.m
      ∧ (s.m = 1 → g = 1) ∧ (2 ≤ s.m → 2 ≤ g)
      ∧ (∀ a, 1 ≤ a → a < 2 ^ s.m → ∃ e < s.order, modPower g s.modulus s.m e = a)
      ∧ ∀ h, 2 ≤ h → h < g → ∃ a, 1 ≤ a ∧ a < 2 ^ s.m ∧ ∀ e, modPower h s.modulus s.m e ≠ a

/-- Rules R142, R150, R33: RDALOG answers the i-th power of the generator, and only i below the order is an index. -/
def Obligations.RdalogAnswersThePower : Prop :=
  ∀ (s : State) (i : Word), s.Inv → s.ctxValid = true → s.ctxStrat = .table →
    (i.toNat < s.order →
      exec (.rdalog i) s
        = .next (s.respond (.ok (BitVec.ofNat 128 (modPower s.ctxGen.toNat s.modulus s.m i.toNat)))))
    ∧ (s.order ≤ i.toNat → exec (.rdalog i) s = .next (s.respond (.err .indexOutOfRange)))

/-- Rules R151, R33: RDLOG answers the exponent whose power is its operand; 0 and values from 2^m on are out of
range. -/
def Obligations.RdlogAnswersTheExponent : Prop :=
  ∀ (s : State) (a : Word), s.Inv → s.ctxValid = true → s.ctxStrat = .table →
    (1 ≤ a.toNat → a.toNat < 2 ^ s.m →
      ∃ i < s.order, exec (.rdlog a) s = .next (s.respond (.ok (BitVec.ofNat 128 i)))
        ∧ modPower s.ctxGen.toNat s.modulus s.m i = a.toNat)
    ∧ (a.toNat = 0 ∨ 2 ^ s.m ≤ a.toNat → exec (.rdlog a) s = .next (s.respond (.err .operandOutOfRange)))

/-! ## CREATE -/

/-- 43_context.md rule R170: the errors after the two degree checks, in their order; each leaves the state as it was
but for its response. -/
def Obligations.CreateErrorsInOrder : Prop :=
  ∀ (m : Nat) (s : State), 1 ≤ m → m ≤ 63 →
    (∀ (a : Word) (hint : Hint), deg a.toNat = (m : Int) → isIrreducible a.toNat m = false →
      exec (.create m (some a) hint false) s = .next (s.respond (.err .polynomialNotIrreducible)))
    ∧ ∀ (modulus : Option Word) (fb : Bool) (f : Poly), choosesModulus m modulus fb f → s.tableCeiling.val < m →
      exec (.create m modulus .table fb) s = .next (s.respond (.err .capacityExceeded))

/-- Rules R170, R171: CREATE with a modulus to build on and the strategy Direct, requested or chosen by Auto above the
ceiling, writes the four descriptor registers, answers 0 and changes nothing else. That CTX_GEN and both memories keep
their values is log 12 (DEDUCED from what the rules write); the spec calls those values unspecified and unreadable (rules
R28, R31, 93_implementation_defined.md U2). The FB form is the spec's decision D14. -/
def Obligations.CreateDirectWritesTheDescriptor : Prop :=
  ∀ (m : Nat) (modulus : Option Word) (hint : Hint) (fb : Bool) (f : Poly) (s : State), 1 ≤ m → m ≤ 63 →
    choosesModulus m modulus fb f → hint = .direct ∨ (hint = .auto ∧ s.tableCeiling.val < m) →
    exec (.create m modulus hint fb) s
      = .next { s with
          ctxValid := true
          ctxM := BitVec.ofNat 6 m
          ctxMod := BitVec.ofNat 64 f
          ctxStrat := .direct
          respPort := s.respPort ++ [.ok 0#128] }

/-- Rules R33, R142, R170, R171: CREATE with a modulus to build on and the strategy Table, requested or chosen by Auto,
at or below the ceiling, answers 0 with the descriptor written, the generator found and the tables complete. The FB form
is the spec's decision D14. -/
def Obligations.CreateTableBuildsTheTables : Prop :=
  ∀ (m : Nat) (modulus : Option Word) (hint : Hint) (fb : Bool) (f : Poly) (s : State), 1 ≤ m → m ≤ 63 →
    choosesModulus m modulus fb f → hint ≠ .direct → m ≤ s.tableCeiling.val →
    ∃ t, exec (.create m modulus hint fb) s = .next t ∧ t.ctxValid = true ∧ t.m = m ∧ t.modulus = f
      ∧ t.ctxStrat = .table ∧ t.descriptorOk ∧ t.tablesOk ∧ t.respPort = s.respPort ++ [.ok 0#128]

/-- Rules R29, R171: what CREATE leaves alone. The host's inputs, the ceiling and the count of resets always; one
response is delivered; on an error everything else; on a Direct context the generator and both memories; on a Table
context the entries outside the range in use. The clauses on the generator and the memories of a Direct context and on
the entries outside the range rest on log 12 (DEDUCED from what the rules write); the spec calls those values
unspecified and unreadable (rules R28, R31, 93_implementation_defined.md U2). -/
def Obligations.CreateFrame : Prop :=
  ∀ (m : Nat) (modulus : Option Word) (hint : Hint) (fb : Bool) (s t : State),
    exec (.create m modulus hint fb) s = .next t →
    t.cmdPort = s.cmdPort ∧ t.tableCeiling = s.tableCeiling ∧ t.resetCount = s.resetCount
    ∧ ((∃ code, t = s.respond (.err code))
      ∨ (t.respPort = s.respPort ++ [.ok 0#128] ∧ t.ctxValid = true
        ∧ (t.ctxStrat = .direct → t.ctxGen = s.ctxGen ∧ t.antilog = s.antilog ∧ t.log = s.log)
        ∧ (t.ctxStrat = .table →
            (∀ i, 2 ^ m - 1 ≤ i → t.antilog.lookup i = s.antilog.lookup i)
            ∧ ∀ a, a = 0 ∨ 2 ^ m ≤ a → t.log.lookup a = s.log.lookup a)))

/-! ## Field arithmetic -/

/-- 43_context.md rules R172, R173: FADD is xor, identical for both strategies, and its result is an Element. -/
def Obligations.FaddIsXorInEveryContext : Prop :=
  ∀ (a b : Word) (s : State), s.ctxValid = true → a.toNat < 2 ^ s.m → b.toNat < 2 ^ s.m →
    exec (.fadd a b) s = .next (s.respond (.ok ((a ^^^ b).setWidth 128))) ∧ (a ^^^ b).toNat < 2 ^ s.m

/-- Rules R174, R175: in a Direct context FMUL answers the product modulo CTX_MOD. -/
def Obligations.FmulInDirectContext : Prop :=
  ∀ (a b : Word) (s : State), s.ctxValid = true → s.ctxStrat = .direct → s.descriptorOk →
    a.toNat < 2 ^ s.m → b.toNat < 2 ^ s.m →
    ∃ q r : Nat, exec (.fmul a b) s = .next (s.respond (.ok (BitVec.ofNat 128 r))) ∧ r < 2 ^ s.m
      ∧ clmul a.toNat b.toNat = clmul q s.modulus ^^^ r

/-- 42_table.md rule R148: in a Table context FMUL answers the very product the Direct strategy computes, zero operands
included. -/
def Obligations.FmulInTableContextIsTheDirectProduct : Prop :=
  ∀ (a b : Word) (s : State), s.Inv → s.ctxValid = true → s.ctxStrat = .table →
    a.toNat < 2 ^ s.m → b.toNat < 2 ^ s.m →
    exec (.fmul a b) s = .next (s.respond (.ok (BitVec.ofNat 128 (modMultiply a.toNat b.toNat s.modulus s.m))))

/-- Rules R178, R179: under either strategy FINV of a nonzero Element answers the one Element s with a·s = 1. -/
def Obligations.FinvAnswersTheInverse : Prop :=
  ∀ (a : Word) (s : State), s.Inv → s.ctxValid = true → 1 ≤ a.toNat → a.toNat < 2 ^ s.m →
    ∃ r : Nat, exec (.finv a) s = .next (s.respond (.ok (BitVec.ofNat 128 r))) ∧ 1 ≤ r ∧ r < 2 ^ s.m
      ∧ modMultiply a.toNat r s.modulus s.m = 1
      ∧ ∀ x < 2 ^ s.m, modMultiply a.toNat x s.modulus s.m = 1 → x = r

/-- Rules R176, R177: under either strategy FDIV by a nonzero Element answers the one Element whose product with the
divisor is the dividend; a zero dividend gives 0. -/
def Obligations.FdivAnswersTheQuotient : Prop :=
  ∀ (a b : Word) (s : State), s.Inv → s.ctxValid = true → a.toNat < 2 ^ s.m → 1 ≤ b.toNat → b.toNat < 2 ^ s.m →
    ∃ r : Nat, exec (.fdiv a b) s = .next (s.respond (.ok (BitVec.ofNat 128 r))) ∧ r < 2 ^ s.m
      ∧ modMultiply r b.toNat s.modulus s.m = a.toNat
      ∧ (a.toNat = 0 → r = 0)
      ∧ ∀ x < 2 ^ s.m, modMultiply x b.toNat s.modulus s.m = a.toNat → x = r

/-- Rules R176 to R179: in a Direct context FINV and FDIV answer what the extended Euclid loop gives. -/
def Obligations.FinvAndFdivInDirectContext : Prop :=
  ∀ (a b : Word) (s : State), s.ctxValid = true → s.ctxStrat = .direct → a.toNat < 2 ^ s.m → 1 ≤ b.toNat →
    b.toNat < 2 ^ s.m →
    exec (.finv b) s = .next (s.respond (.ok (BitVec.ofNat 128 (polyInv b.toNat s.modulus))))
    ∧ exec (.fdiv a b) s = .next (s.respond (.ok (BitVec.ofNat 128
        (modMultiply a.toNat (polyInv b.toNat s.modulus) s.modulus s.m))))

/-- Rule R184: the laws of the field commands, under either strategy: FMUL, FINV and FDIV are functions on the Elements
that obey the field laws, and the zero divisor and the zero argument are errors. -/
def Obligations.FieldLawsHoldInEveryContext : Prop :=
  ∀ s : State, s.Inv → s.ctxValid = true →
    ∃ (mul div : Nat → Nat → Nat) (inv : Nat → Nat),
      (∀ a b : Word, a.toNat < 2 ^ s.m → b.toNat < 2 ^ s.m →
        exec (.fmul a b) s = .next (s.respond (.ok (BitVec.ofNat 128 (mul a.toNat b.toNat))))
        ∧ (b.toNat ≠ 0 → exec (.fdiv a b) s = .next (s.respond (.ok (BitVec.ofNat 128 (div a.toNat b.toNat)))))
        ∧ (b.toNat ≠ 0 → exec (.finv b) s = .next (s.respond (.ok (BitVec.ofNat 128 (inv b.toNat)))))
        ∧ (b.toNat = 0 → exec (.fdiv a b) s = .next (s.respond (.err .divisionByZero)))
        ∧ (b.toNat = 0 → exec (.finv b) s = .next (s.respond (.err .inversionOfZero))))
      ∧ ∀ a b c, a < 2 ^ s.m → b < 2 ^ s.m → c < 2 ^ s.m →
        mul a b < 2 ^ s.m ∧ mul a 1 = a ∧ mul a b = mul b a ∧ mul (mul a b) c = mul a (mul b c)
        ∧ mul a (b ^^^ c) = mul a b ^^^ mul a c
        ∧ (a ≠ 0 → inv a < 2 ^ s.m ∧ mul a (inv a) = 1 ∧ inv (inv a) = a)
        ∧ (b ≠ 0 → div a b < 2 ^ s.m ∧ mul (div a b) b = a)

/-- Rules R180 to R182: the accessors' headers, results and their one error. CARD's result lies between 2 and 2^63 for a
legal degree. -/
def Obligations.AccessorsAnswerFromTheContext : Prop :=
  (∀ p : Packet, (decode p = .ok .card ↔ p.w0 = 0x50#64) ∧ (decode p = .ok .char ↔ p.w0 = 0x51#64)
    ∧ (decode p = .ok .deg ↔ p.w0 = 0x52#64))
  ∧ (∀ s : State, s.ctxValid = true →
      exec .card s = .next (s.respond (.ok (BitVec.twoPow 128 s.m)))
      ∧ exec .char s = .next (s.respond (.ok 2#128))
      ∧ exec .deg s = .next (s.respond (.ok (s.ctxM.setWidth 128)))
      ∧ (1 ≤ s.m → 2 ≤ (BitVec.twoPow 128 s.m).toNat ∧ (BitVec.twoPow 128 s.m).toNat ≤ 2 ^ 63))
  ∧ ∀ s : State, s.ctxValid = false → ∀ i ∈ [Instr.card, .char, .deg],
      exec i s = .next (s.respond (.err .noContext))

/-! ## Errors -/

/-- 60_exceptions.md rule R206: the ten context commands answer NoContext before any operand is looked at. -/
def Obligations.ContextCommandsNeedAContext : Prop :=
  ∀ (s : State) (a b : Word), s.ctxValid = false →
    ∀ i ∈ [Instr.findgen, .rdalog a, .rdlog a, .fadd a b, .fmul a b, .fdiv a b, .finv a, .card, .char, .deg],
      exec i s = .next (s.respond (.err .noContext))

/-- Rules R183, R211: with a context, NoTable comes before the range of an operand or an index, and the range comes
before a zero divisor or argument. -/
def Obligations.ContextCommandErrorsInOrder : Prop :=
  ∀ (s : State) (a b : Word), s.ctxValid = true →
    (s.ctxStrat = .direct → ∀ i ∈ [Instr.rdalog a, .rdlog a], exec i s = .next (s.respond (.err .noTable)))
    ∧ (s.ctxStrat = .table → s.order ≤ a.toNat → exec (.rdalog a) s = .next (s.respond (.err .indexOutOfRange)))
    ∧ (s.ctxStrat = .table → a.toNat = 0 ∨ 2 ^ s.m ≤ a.toNat →
        exec (.rdlog a) s = .next (s.respond (.err .operandOutOfRange)))
    ∧ (2 ^ s.m ≤ a.toNat ∨ 2 ^ s.m ≤ b.toNat → ∀ i ∈ [Instr.fadd a b, .fmul a b, .fdiv a b],
        exec i s = .next (s.respond (.err .operandOutOfRange)))
    ∧ (2 ^ s.m ≤ a.toNat → exec (.finv a) s = .next (s.respond (.err .operandOutOfRange)))
    ∧ (a.toNat < 2 ^ s.m → b.toNat = 0 → exec (.fdiv a b) s = .next (s.respond (.err .divisionByZero)))
    ∧ (a.toNat = 0 → exec (.finv a) s = .next (s.respond (.err .inversionOfZero)))

/-- Rule R201: a command answers only the errors of its row. -/
def Obligations.CommandsAnswerOnlyTheirErrors : Prop :=
  ∀ (i : Instr) (s t : State) (code : ErrorCode), exec i s = .next t → t.respPort = s.respPort ++ [.err code] →
    code ∈ possibleErrors i

/-- Rule R203: a command that ends in an error writes no architectural state; its response carries the code and
R = 0. -/
def Obligations.ErrorsWriteNothing : Prop :=
  (∀ (i : Instr) (s t : State) (code : ErrorCode), exec i s = .next t → t.respPort = s.respPort ++ [.err code] →
    t = s.respond (.err code))
  ∧ ∀ code : ErrorCode, (Response.err code).toPacket = ⟨code.code.setWidth 64, 0#64, 0#64⟩

/-- Rules R64, R200: STATUS is 0 exactly for Ok, every error has its own code, S0[63:8] is 0, and the packet gives the
response back. -/
def Obligations.ResponsePacketsCarryStatusAndResult : Prop :=
  (∀ r : Response, (r.toPacket.s0.extractLsb' 0 8 = 0#8 ↔ ∃ v, r = .ok v) ∧ r.toPacket.s0.extractLsb' 8 56 = 0#56)
  ∧ (∀ v : Wide, (Response.ok v).toPacket.rHi ++ (Response.ok v).toPacket.rLo = v)
  ∧ ∀ r r' : Response, r.toPacket = r'.toPacket → r = r'

/-- Rule R64: only PCLMUL can answer a result that needs R_HI. -/
def Obligations.OnlyPclmulNeedsTheHighWord : Prop :=
  ∀ (i : Instr) (s t : State) (r : Wide), s.Inv → exec i s = .next t → t.respPort = s.respPort ++ [.ok r] →
    (∀ a b, i ≠ .pclmul a b) → (Response.ok r).toPacket.rHi = 0#64

/-! ## The whole machine -/

/-- 10_state.md rules R13, R29: every command but CREATE changes nothing but the response port, where it delivers one
response. -/
def Obligations.OnlyCreateWritesArchitecturalState : Prop :=
  ∀ (i : Instr) (s t : State), isCreate i = false → exec i s = .next t → ∃ r, t = s.respond r

/-- 00_scope.md rule R13: what a command answers and writes depends only on the command and the architectural state, not
on the ports or on earlier responses. -/
def Obligations.CommandsArePureInTheArchitecture : Prop :=
  ∀ (i : Instr) (s t s' : State), s.sameArchitecture t → exec i s = .next s' →
    ∃ t' r, exec i t = .next t' ∧ s'.sameArchitecture t' ∧ s'.respPort = s.respPort ++ [r]
      ∧ t'.respPort = t.respPort ++ [r]

/-- 70_reset_and_hazards.md rule R233: a context-free command has one answer, the same in every state. -/
def Obligations.ContextFreeCommandsAnswerAlikeInEveryState : Prop :=
  ∀ i : Instr, isContextFree i = true → ∃ r, ∀ s : State, exec i s = .next (s.respond r)

/-- 10_state.md rule R24: CTX_VALID is 0 after reset, becomes 1 only by a successful CREATE, which always sets it, and
becomes 0 only by reset; while it is 0 every context command answers NoContext. -/
def Obligations.ContextValidChangesOnlyByCreateAndReset : Prop :=
  (∀ c : Fin 64, (State.resetWith c).ctxValid = false)
  ∧ (∀ s t : State, step s = .next t →
    (s.ctxValid = true → t.ctxValid = false → ∃ rest, s.cmdPort = .reset :: rest)
    ∧ (s.ctxValid = false → t.ctxValid = true →
        ∃ p rest i, s.cmdPort = .packet p :: rest ∧ decode p = .ok i ∧ isCreate i = true
          ∧ t.respPort = s.respPort ++ [.ok 0#128])
    ∧ ∀ p rest i r, s.cmdPort = .packet p :: rest → decode p = .ok i → isCreate i = true →
        t.respPort = s.respPort ++ [.ok r] → t.ctxValid = true)
  ∧ ∀ (i : Instr) (s : State), needsContext i = true → s.ctxValid = false →
      exec i s = .next (s.respond (.err .noContext))

/-- 10_state.md rule R35: no step changes TABLE_CEILING. That the parameter stands in State is the model's choice
(log 1). -/
def Obligations.TableCeilingIsConstant : Prop :=
  ∀ s t : State, step s = .next t → t.tableCeiling = s.tableCeiling

/-- 10_state.md rule R36, 93_implementation_defined.md U1, U2: what reset leaves unspecified, and what a Direct context
or a smaller table leaves in the memories, is never seen: two states that agree on what can be read stay so, and answer
alike. -/
def Obligations.UnspecifiedValuesAreNeverSeen : Prop :=
  ∀ s t s' : State, s.sameReadable t → s.cmdPort = t.cmdPort → s.respPort = t.respPort → step s = .next s' →
    ∃ t', step t = .next t' ∧ s'.sameReadable t' ∧ s'.cmdPort = t'.cmdPort ∧ s'.respPort = t'.respPort

/-! ## Invariants -/

/-- The invariant of the state holds after reset, whatever the ceiling. The empty memories are the model's choice
(log 3). -/
def Obligations.InvariantHoldsAfterReset : Prop := ∀ c : Fin 64, (State.resetWith c).Inv

/-- Every step keeps both table memories in their canonical form (the model's own form, log 3). -/
def Obligations.StepKeepsTheTablesCanonical : Prop :=
  ∀ s t : State, s.tablesCanonical → step s = .next t → t.tablesCanonical

/-- 10_state.md rules R25 to R27: every step keeps the invariants of the context registers: a legal degree, a modulus of
that degree that passes IsIrreducible, and a Table context only at or below the ceiling. -/
def Obligations.StepKeepsTheDescriptorValid : Prop :=
  ∀ s t : State,
    (s.ctxValid = true → s.descriptorOk ∧ (s.ctxStrat = .table → s.m ≤ s.tableCeiling.val)) → step s = .next t →
    (t.ctxValid = true → t.descriptorOk ∧ (t.ctxStrat = .table → t.m ≤ t.tableCeiling.val))

/-- 10_state.md rules R25 to R28, R33: every step keeps the whole invariant, the bijection of the tables included. -/
def Obligations.StepKeepsTheInvariant : Prop := ∀ s t : State, s.Inv → step s = .next t → t.Inv

/-- 93_implementation_defined.md U2, U7 and rules R123, R141, R236: from a state that meets the invariant every step
answers a next state; no fault of the model is reached. -/
def Obligations.StepNeverStops : Prop := ∀ s : State, s.Inv → ∃ t, step s = .next t
end

