-- ==== Sys2Proof/Laws/State.lean ====
section
/-! SUPPORT. One lemma per field per update of the state, so that no later proof unfolds a record update. -/

namespace Sys2Proof.Machine

/-! ### Delivering a response -/

section Respond
variable (s : State) (r : Response)
@[simp] theorem respond_ctxValid : (s.respond r).ctxValid = s.ctxValid := rfl
@[simp] theorem respond_ctxM : (s.respond r).ctxM = s.ctxM := rfl
@[simp] theorem respond_ctxMod : (s.respond r).ctxMod = s.ctxMod := rfl
@[simp] theorem respond_ctxStrat : (s.respond r).ctxStrat = s.ctxStrat := rfl
@[simp] theorem respond_ctxGen : (s.respond r).ctxGen = s.ctxGen := rfl
@[simp] theorem respond_antilog : (s.respond r).antilog = s.antilog := rfl
@[simp] theorem respond_log : (s.respond r).log = s.log := rfl
@[simp] theorem respond_cmdPort : (s.respond r).cmdPort = s.cmdPort := rfl
@[simp] theorem respond_respPort : (s.respond r).respPort = s.respPort ++ [r] := rfl
@[simp] theorem respond_tableCeiling : (s.respond r).tableCeiling = s.tableCeiling := rfl
@[simp] theorem respond_resetCount : (s.respond r).resetCount = s.resetCount := rfl
@[simp] theorem respond_m : (s.respond r).m = s.m := rfl
@[simp] theorem respond_modulus : (s.respond r).modulus = s.modulus := rfl
@[simp] theorem respond_order : (s.respond r).order = s.order := rfl
end Respond

/-! ### Writing the descriptor -/

section SetDescriptor
variable (s : State) (f : Poly) (m : Nat) (strategy : Strategy)
@[simp] theorem setDescriptor_ctxValid : (s.setDescriptor f m strategy).ctxValid = true := rfl
@[simp] theorem setDescriptor_ctxM : (s.setDescriptor f m strategy).ctxM = BitVec.ofNat 6 m := rfl
@[simp] theorem setDescriptor_ctxMod : (s.setDescriptor f m strategy).ctxMod = BitVec.ofNat 64 f := rfl
@[simp] theorem setDescriptor_ctxStrat : (s.setDescriptor f m strategy).ctxStrat = strategy := rfl
@[simp] theorem setDescriptor_ctxGen : (s.setDescriptor f m strategy).ctxGen = s.ctxGen := rfl
@[simp] theorem setDescriptor_antilog : (s.setDescriptor f m strategy).antilog = s.antilog := rfl
@[simp] theorem setDescriptor_log : (s.setDescriptor f m strategy).log = s.log := rfl
@[simp] theorem setDescriptor_cmdPort : (s.setDescriptor f m strategy).cmdPort = s.cmdPort := rfl
@[simp] theorem setDescriptor_respPort : (s.setDescriptor f m strategy).respPort = s.respPort := rfl
@[simp] theorem setDescriptor_tableCeiling : (s.setDescriptor f m strategy).tableCeiling = s.tableCeiling := rfl
@[simp] theorem setDescriptor_resetCount : (s.setDescriptor f m strategy).resetCount = s.resetCount := rfl
end SetDescriptor

/-- The degree and the modulus a legal descriptor leaves (rules R25, R26). -/
theorem setDescriptor_m {s : State} {f : Poly} {m : Nat} {strategy : Strategy} (h : m < 64) :
    (s.setDescriptor f m strategy).m = m :=
  Nat.mod_eq_of_lt h

theorem setDescriptor_modulus {s : State} {f : Poly} {m : Nat} {strategy : Strategy} (h : f < 2 ^ 64) :
    (s.setDescriptor f m strategy).modulus = f :=
  Nat.mod_eq_of_lt h

/-! ### Writing the generator -/

section SetGenerator
variable (s : State) (g : Poly)
@[simp] theorem setGenerator_ctxValid : (s.setGenerator g).ctxValid = s.ctxValid := rfl
@[simp] theorem setGenerator_ctxM : (s.setGenerator g).ctxM = s.ctxM := rfl
@[simp] theorem setGenerator_ctxMod : (s.setGenerator g).ctxMod = s.ctxMod := rfl
@[simp] theorem setGenerator_ctxStrat : (s.setGenerator g).ctxStrat = s.ctxStrat := rfl
@[simp] theorem setGenerator_ctxGen : (s.setGenerator g).ctxGen = BitVec.ofNat 63 g := rfl
@[simp] theorem setGenerator_antilog : (s.setGenerator g).antilog = s.antilog := rfl
@[simp] theorem setGenerator_log : (s.setGenerator g).log = s.log := rfl
@[simp] theorem setGenerator_cmdPort : (s.setGenerator g).cmdPort = s.cmdPort := rfl
@[simp] theorem setGenerator_respPort : (s.setGenerator g).respPort = s.respPort := rfl
@[simp] theorem setGenerator_tableCeiling : (s.setGenerator g).tableCeiling = s.tableCeiling := rfl
@[simp] theorem setGenerator_resetCount : (s.setGenerator g).resetCount = s.resetCount := rfl
end SetGenerator

/-! ### Writing a table entry -/

section TblWrite
variable (s : State) (T : TableId) (i v : Nat)
@[simp] theorem tblWrite_ctxValid : (s.tblWrite T i v).ctxValid = s.ctxValid := by cases T <;> rfl
@[simp] theorem tblWrite_ctxM : (s.tblWrite T i v).ctxM = s.ctxM := by cases T <;> rfl
@[simp] theorem tblWrite_ctxMod : (s.tblWrite T i v).ctxMod = s.ctxMod := by cases T <;> rfl
@[simp] theorem tblWrite_ctxStrat : (s.tblWrite T i v).ctxStrat = s.ctxStrat := by cases T <;> rfl
@[simp] theorem tblWrite_ctxGen : (s.tblWrite T i v).ctxGen = s.ctxGen := by cases T <;> rfl
@[simp] theorem tblWrite_cmdPort : (s.tblWrite T i v).cmdPort = s.cmdPort := by cases T <;> rfl
@[simp] theorem tblWrite_respPort : (s.tblWrite T i v).respPort = s.respPort := by cases T <;> rfl
@[simp] theorem tblWrite_tableCeiling : (s.tblWrite T i v).tableCeiling = s.tableCeiling := by cases T <;> rfl
@[simp] theorem tblWrite_resetCount : (s.tblWrite T i v).resetCount = s.resetCount := by cases T <;> rfl
@[simp] theorem tblWrite_antilog_antilog : (s.tblWrite .antilog i v).antilog = s.antilog.write i v := rfl
@[simp] theorem tblWrite_antilog_log : (s.tblWrite .antilog i v).log = s.log := rfl
@[simp] theorem tblWrite_log_antilog : (s.tblWrite .log i v).antilog = s.antilog := rfl
@[simp] theorem tblWrite_log_log : (s.tblWrite .log i v).log = s.log.write i v := rfl
@[simp] theorem table_antilog : s.table .antilog = s.antilog := rfl
@[simp] theorem table_log : s.table .log = s.log := rfl
end TblWrite

/-! ### Reset and the command port -/

section Ports
variable (s : State) (p : Packet)
@[simp] theorem assertReset_ctxValid : s.assertReset.ctxValid = false := rfl
@[simp] theorem assertReset_cmdPort : s.assertReset.cmdPort = s.cmdPort := rfl
@[simp] theorem assertReset_respPort : s.assertReset.respPort = s.respPort := rfl
@[simp] theorem assertReset_tableCeiling : s.assertReset.tableCeiling = s.tableCeiling := rfl
@[simp] theorem assertReset_resetCount : s.assertReset.resetCount = s.resetCount + 1 := rfl
@[simp] theorem present_cmdPort : (present p s).cmdPort = .packet p :: s.cmdPort := rfl
@[simp] theorem takeInput_present : takeInput (present p s) = some (.packet p, s) := rfl
end Ports

theorem takeInput_nil {s : State} (h : s.cmdPort = []) : takeInput s = none := by simp [takeInput, h]

theorem takeInput_cons {s : State} {input : HostInput} {rest : List HostInput} (h : s.cmdPort = input :: rest) :
    takeInput s = some (input, { s with cmdPort := rest }) := by simp [takeInput, h]

end Sys2Proof.Machine
end

