-- ==== Sys2Proof/Laws/Table.lean ====
section
/-! SUPPORT. The laws of the table memories: a read after a write, and that every operation keeps the canonical
form. -/

namespace Sys2Proof.Machine

@[simp] theorem lookup_nil (i : Nat) : Table.lookup [] i = none := rfl

/-- A read after a write to the same index gives the value written, whatever the table. -/
@[simp] theorem lookup_write_same (t : Table) (i v : Nat) : (t.write i v).lookup i = some v := by
  induction t with
  | nil => simp [Table.write, Table.lookup]
  | cons e rest ih =>
    obtain ⟨j, w⟩ := e
    unfold Table.write
    split
    · simp [Table.lookup]
    · split
      · simp [Table.lookup]
      · rename_i _ hne
        simp [Table.lookup, hne, ih]

/-- A write leaves every other index alone. -/
theorem lookup_write_other (t : Table) {i j : Nat} (v : Nat) (h : j ≠ i) : (t.write i v).lookup j = t.lookup j := by
  induction t with
  | nil => simp [Table.write, Table.lookup, h]
  | cons e rest ih =>
    obtain ⟨k, w⟩ := e
    unfold Table.write
    split
    · simp [Table.lookup, h]
    · split
      · rename_i _ hik
        subst hik
        simp [Table.lookup, h]
      · simp [Table.lookup, ih]

theorem wf_cons {i v : Nat} {t : Table} (h : Table.wf ((i, v) :: t) = true) : Table.wf t = true := by
  cases t with
  | nil => rfl
  | cons e rest =>
    obtain ⟨j, w⟩ := e
    simp only [Table.wf, Bool.and_eq_true] at h
    exact h.2

/-- Every write keeps the canonical form, and the new head lies no lower than the old head or the written index. -/
theorem wf_write {t : Table} (i v : Nat) (h : Table.wf t = true) : Table.wf (t.write i v) = true := by
  induction t with
  | nil => rfl
  | cons e rest ih =>
    obtain ⟨j, w⟩ := e
    have hrest := ih (wf_cons h)
    unfold Table.write
    split
    · rename_i hij
      simp [Table.wf, hij, h]
    · split
      · rename_i _ hij
        subst hij
        cases rest with
        | nil => rfl
        | cons e' rest' => simpa [Table.wf] using h
      · rename_i hlt hne
        cases rest with
        | nil =>
          simp only [Table.write, Table.wf, Bool.and_true, decide_eq_true_eq]
          omega
        | cons e' rest' =>
          obtain ⟨k, x⟩ := e'
          simp only [Table.wf, Bool.and_eq_true, decide_eq_true_eq] at h
          unfold Table.write at hrest ⊢
          split at hrest
          · rename_i hik
            rw [if_pos hik]
            simp only [Table.wf, Bool.and_eq_true, decide_eq_true_eq]
            exact ⟨by omega, hik, h.2⟩
          · rename_i hik
            rw [if_neg hik]
            split at hrest
            · rename_i heq
              rw [if_pos heq]
              simp only [Table.wf, Bool.and_eq_true, decide_eq_true_eq]
              exact ⟨by omega, hrest⟩
            · rename_i heq
              rw [if_neg heq]
              simp only [Table.wf, Bool.and_eq_true, decide_eq_true_eq]
              exact ⟨h.1, hrest⟩

theorem wf_foldl_write (entries : List (Nat × Nat)) {t : Table} (h : Table.wf t = true) :
    Table.wf (entries.foldl (fun t e => Table.write t e.1 e.2) t) = true := by
  induction entries generalizing t with
  | nil => exact h
  | cons e rest ih => exact ih (wf_write e.1 e.2 h)

/-- A table made of any list of pairs is canonical. -/
theorem wf_ofList (entries : List (Nat × Nat)) : Table.wf (Table.ofList entries) = true :=
  wf_foldl_write entries rfl

theorem lookup_none_of_lt {t : Table} {i v : Nat} {j : Nat} (h : Table.wf ((i, v) :: t) = true) (hj : j < i) :
    Table.lookup ((i, v) :: t) j = none := by
  induction t generalizing i v with
  | nil => simp [Table.lookup, Nat.ne_of_lt hj]
  | cons e rest ih =>
    obtain ⟨k, w⟩ := e
    simp only [Table.wf, Bool.and_eq_true, decide_eq_true_eq] at h
    have := ih (i := k) (v := w) h.2 (by omega)
    rw [Table.lookup, if_neg (by omega)]
    exact this

/-- Canonical tables with the same entries are the same data. -/
theorem eq_of_lookup {t u : Table} (ht : Table.wf t = true) (hu : Table.wf u = true)
    (h : ∀ i, t.lookup i = u.lookup i) : t = u := by
  induction t generalizing u with
  | nil =>
    cases u with
    | nil => rfl
    | cons e rest =>
      obtain ⟨j, w⟩ := e
      simpa [Table.lookup] using h j
  | cons e rest ih =>
    obtain ⟨i, v⟩ := e
    cases u with
    | nil => simpa [Table.lookup] using h i
    | cons e' rest' =>
      obtain ⟨j, w⟩ := e'
      have hij : i = j := by
        rcases Nat.lt_trichotomy i j with hlt | heq | hgt
        · have := h i
          rw [lookup_none_of_lt hu hlt] at this
          simp [Table.lookup] at this
        · exact heq
        · have := h j
          rw [lookup_none_of_lt ht hgt] at this
          simp [Table.lookup] at this
      subst hij
      have hvw : v = w := by simpa [Table.lookup] using h i
      subst hvw
      have : rest = rest' := ih (wf_cons ht) (wf_cons hu) (fun k => by
        by_cases hk : k = i
        · subst hk
          have ha : Table.lookup rest k = none := by
            cases rest with
            | nil => rfl
            | cons a as =>
              obtain ⟨x, y⟩ := a
              simp only [Table.wf, Bool.and_eq_true, decide_eq_true_eq] at ht
              exact lookup_none_of_lt ht.2 ht.1
          have hb : Table.lookup rest' k = none := by
            cases rest' with
            | nil => rfl
            | cons a as =>
              obtain ⟨x, y⟩ := a
              simp only [Table.wf, Bool.and_eq_true, decide_eq_true_eq] at hu
              exact lookup_none_of_lt hu.2 hu.1
          rw [ha, hb]
        · simpa [Table.lookup, hk] using h k)
      rw [this]

end Sys2Proof.Machine
end

