-- ==== Sys2Proof/Laws/Ops.lean ====
section
/-! SUPPORT. What each shared operation can do, said once: ending a command, the checks, the table reads and
writes, phase 1 and phase 2 of CREATE, and one step. -/

namespace Sys2Proof.Machine

/-! ### Ending a command -/

@[simp] theorem raise_bind {α β : Type} (code : ErrorCode) (k : α → Cmd β) : (raise code >>= k) = raise code := rfl

@[simp] theorem modelFault_bind {α β : Type} (f : Fault) (k : α → Cmd β) : (modelFault f >>= k) = modelFault f := rfl

@[simp] theorem ok_bind {α β : Type} (a : α) (k : α → Cmd β) : ((Except.ok a : Cmd α) >>= k) = k a := rfl

@[simp] theorem pure_bind_cmd {α β : Type} (a : α) (k : α → Cmd β) : ((pure a : Cmd α) >>= k) = k a := rfl

@[simp] theorem map_raise {α β : Type} (f : α → β) (code : ErrorCode) : (f <$> (raise code : Cmd α)) = raise code := rfl

@[simp] theorem map_modelFault {α β : Type} (f : α → β) (e : Fault) :
    (f <$> (modelFault e : Cmd α)) = modelFault e := rfl

@[simp] theorem map_ok {α β : Type} (f : α → β) (a : α) : (f <$> (Except.ok a : Cmd α)) = Except.ok (f a) := rfl

@[simp] theorem deliver_ok (s : State) (r : Wide) : deliver s (.ok r) = .next (s.respond (.ok r)) := rfl

@[simp] theorem deliver_pure (s : State) (r : Wide) : deliver s (pure r) = .next (s.respond (.ok r)) := rfl

@[simp] theorem deliver_raise (s : State) (code : ErrorCode) :
    deliver s (raise code) = .next (s.respond (.err code)) := rfl

@[simp] theorem deliver_modelFault (s : State) (f : Fault) : deliver s (modelFault f) = .fault f := rfl

@[simp] theorem conclude_ok (s t : State) (r : Wide) : conclude s (.ok (t, r)) = .next (t.respond (.ok r)) := rfl

@[simp] theorem conclude_pure (s t : State) (r : Wide) : conclude s (pure (t, r)) = .next (t.respond (.ok r)) := rfl

@[simp] theorem conclude_raise (s : State) (code : ErrorCode) :
    conclude s (raise code) = .next (s.respond (.err code)) := rfl

@[simp] theorem conclude_modelFault (s : State) (f : Fault) : conclude s (modelFault f) = .fault f := rfl

@[simp] theorem answerIllegal_eq (s : State) : answerIllegal s = .next (s.respond (.err .illegalCommand)) := rfl

/-- A piece of pseudocode gives a value, raises an error, or faults. -/
theorem cmd_cases {α : Type} (c : Cmd α) : (∃ a, c = .ok a) ∨ (∃ code, c = raise code) ∨ ∃ f, c = modelFault f := by
  rcases c with (code | f) | a
  · exact .inr (.inl ⟨code, rfl⟩)
  · exact .inr (.inr ⟨f, rfl⟩)
  · exact .inl ⟨a, rfl⟩

/-- A command that writes no state ends with one response and nothing else changed, or faults. -/
theorem deliver_cases (s : State) (c : Cmd Wide) :
    (∃ r, c = .ok r ∧ deliver s c = .next (s.respond (.ok r)))
      ∨ (∃ code, c = raise code ∧ deliver s c = .next (s.respond (.err code)))
      ∨ ∃ f, c = modelFault f ∧ deliver s c = .fault f := by
  rcases cmd_cases c with ⟨r, rfl⟩ | ⟨code, rfl⟩ | ⟨f, rfl⟩
  · exact .inl ⟨r, rfl, rfl⟩
  · exact .inr (.inl ⟨code, rfl, rfl⟩)
  · exact .inr (.inr ⟨f, rfl, rfl⟩)

/-- If such a command answers a next state, that state is the old one with one response delivered. -/
theorem deliver_next {s t : State} {c : Cmd Wide} (h : deliver s c = .next t) : ∃ r, t = s.respond r := by
  rcases deliver_cases s c with ⟨r, _, hc⟩ | ⟨code, _, hc⟩ | ⟨f, _, hc⟩ <;> rw [hc] at h <;> cases h
  · exact ⟨.ok r, rfl⟩
  · exact ⟨.err code, rfl⟩

theorem conclude_ne_refused (s : State) (c : Cmd (State × Wide)) (r : Refusal) : conclude s c ≠ .refused r := by
  rcases c with (_ | _) | _ <;> exact fun h => nomatch h

/-! ### Checks -/

theorem checkDegree_ok {m : Nat} (h1 : 1 ≤ m) (h2 : m ≤ 63) : checkDegree m = .ok () := by
  have : ¬(m = 0 ∨ Config.maxDegree < m) := by simp only [Config.maxDegree]; omega
  simp [checkDegree, this]

theorem checkDegree_raise {m : Nat} (h : m = 0 ∨ 63 < m) : checkDegree m = raise .degreeOutOfRange := by
  have : m = 0 ∨ Config.maxDegree < m := h
  simp [checkDegree, this]

theorem checkTop_ok {p : Poly} {m : Nat} (h : deg p = (m : Int)) : checkTop p m = .ok () := by simp [checkTop, h]

theorem checkTop_raise {p : Poly} {m : Nat} (h : deg p ≠ (m : Int)) :
    checkTop p m = raise .polynomialDegreeMismatch := by simp [checkTop, h]

theorem requireContext_ok {s : State} (h : s.ctxValid = true) : requireContext s = .ok () := by
  simp [requireContext, h]

theorem requireContext_raise {s : State} (h : s.ctxValid = false) : requireContext s = raise .noContext := by
  simp [requireContext, h]

theorem requireTable_ok {s : State} (h : s.ctxStrat = .table) : requireTable s = .ok () := by
  simp [requireTable, h]

theorem requireTable_raise {s : State} (h : s.ctxStrat = .direct) : requireTable s = raise .noTable := by
  simp [requireTable, h]

theorem checkElement_ok {s : State} {v : Nat} (h : v < 2 ^ s.m) : checkElement s v = .ok () := by
  simp [checkElement, Nat.not_le.mpr h]

theorem checkElement_raise {s : State} {v : Nat} (h : 2 ^ s.m ≤ v) :
    checkElement s v = raise .operandOutOfRange := by simp [checkElement, h]

theorem checkIndex_ok {s : State} {i : Nat} (h : i < s.order) : checkIndex s i = .ok () := by
  simp [checkIndex, Nat.not_le.mpr h]

theorem checkIndex_raise {s : State} {i : Nat} (h : s.order ≤ i) : checkIndex s i = raise .indexOutOfRange := by
  simp [checkIndex, h]

theorem checkLogOperand_ok {s : State} {a : Nat} (h1 : 1 ≤ a) (h2 : a < 2 ^ s.m) : checkLogOperand s a = .ok () := by
  have : ¬(a = 0 ∨ 2 ^ s.m ≤ a) := by omega
  simp [checkLogOperand, this]

theorem checkLogOperand_raise {s : State} {a : Nat} (h : a = 0 ∨ 2 ^ s.m ≤ a) :
    checkLogOperand s a = raise .operandOutOfRange := by simp [checkLogOperand, h]

/-! ### Table reads -/

/-- Under the precondition of rule R42 the value read is the entry listed. -/
theorem tblRead_ok {s : State} {T : TableId} {i v : Nat} (hv : s.ctxValid = true) (ht : s.ctxStrat = .table)
    (hi : T.inRange s.m i = true) (h : (s.table T).lookup i = some v) : tblRead s T i = .ok v := by
  simp [tblRead, hv, ht, hi, h]

theorem tblRead_ok_iff {s : State} {T : TableId} {i v : Nat} :
    tblRead s T i = .ok v ↔ s.ctxValid = true ∧ s.ctxStrat = .table ∧ T.inRange s.m i = true
      ∧ (s.table T).lookup i = some v := by
  constructor
  · intro h
    unfold tblRead at h
    split at h
    · rename_i hpre
      split at h
      · rename_i w hw
        cases h
        exact ⟨hpre.1, hpre.2.1, hpre.2.2, hw⟩
      · cases h
    · cases h
  · rintro ⟨hv, ht, hi, h⟩
    exact tblRead_ok hv ht hi h

/-- A table read never raises an error of the engine. -/
theorem tblRead_ne_raise (s : State) (T : TableId) (i : Nat) (code : ErrorCode) : tblRead s T i ≠ raise code := by
  unfold tblRead
  intro h
  split at h
  · split at h <;> cases h
  · cases h

/-! ### Build -/

section BuildFrame
variable (f : Poly) (m : Nat) (g : Poly)

/-- Build writes the two table memories and nothing else (rules R43, R142). -/
theorem buildFrom_frame (count i : Nat) (current : Poly) (s : State) :
    buildFrom f m g count i current s
      = { s with antilog := (buildFrom f m g count i current s).antilog
                 log := (buildFrom f m g count i current s).log } := by
  induction count generalizing i current s with
  | zero => rfl
  | succ n ih =>
    rw [buildFrom, ih]
    rfl

theorem build_frame (s : State) :
    build f m g s = { s with antilog := (build f m g s).antilog, log := (build f m g s).log } :=
  buildFrom_frame f m g _ _ _ s

variable (s : State)
@[simp] theorem build_ctxValid : (build f m g s).ctxValid = s.ctxValid := by rw [build_frame]
@[simp] theorem build_ctxM : (build f m g s).ctxM = s.ctxM := by rw [build_frame]
@[simp] theorem build_ctxMod : (build f m g s).ctxMod = s.ctxMod := by rw [build_frame]
@[simp] theorem build_ctxStrat : (build f m g s).ctxStrat = s.ctxStrat := by rw [build_frame]
@[simp] theorem build_ctxGen : (build f m g s).ctxGen = s.ctxGen := by rw [build_frame]
@[simp] theorem build_cmdPort : (build f m g s).cmdPort = s.cmdPort := by rw [build_frame]
@[simp] theorem build_respPort : (build f m g s).respPort = s.respPort := by rw [build_frame]
@[simp] theorem build_tableCeiling : (build f m g s).tableCeiling = s.tableCeiling := by rw [build_frame]
@[simp] theorem build_resetCount : (build f m g s).resetCount = s.resetCount := by rw [build_frame]
end BuildFrame

/-- Build keeps the canonical form of both memories. -/
theorem buildFrom_tablesCanonical (f : Poly) (m : Nat) (g : Poly) (count i : Nat) (current : Poly) {s : State}
    (h : s.tablesCanonical) : (buildFrom f m g count i current s).tablesCanonical := by
  induction count generalizing i current s with
  | zero => exact h
  | succ n ih => exact ih _ _ ⟨wf_write _ _ h.1, wf_write _ _ h.2⟩

/-- Build writes `ANTILOG` at the indices i to i + count − 1 only. -/
theorem buildFrom_antilog_other (f : Poly) (m : Nat) (g : Poly) (count i : Nat) (current : Poly) (s : State) {j : Nat}
    (h : j < i ∨ i + count ≤ j) :
    (buildFrom f m g count i current s).antilog.lookup j = s.antilog.lookup j := by
  induction count generalizing i current s with
  | zero => rfl
  | succ n ih =>
    rw [buildFrom, ih _ _ _ (by omega)]
    exact lookup_write_other _ _ (by omega)

/-! ### CREATE -/

/-- The error of phase 1's strategy, or its choice. -/
theorem resolveStrategy_cases (s : State) (m : Nat) (hint : Hint) :
    (hint = .table ∧ s.tableCeiling.val < m ∧ resolveStrategy s m hint = raise .capacityExceeded)
      ∨ (hint ≠ .direct ∧ m ≤ s.tableCeiling.val ∧ resolveStrategy s m hint = .ok .table)
      ∨ ((hint = .direct ∨ hint = .auto ∧ s.tableCeiling.val < m) ∧ resolveStrategy s m hint = .ok .direct) := by
  cases hint <;> by_cases h : m ≤ s.tableCeiling.val <;> simp [resolveStrategy, tableAvailable, h, pure, Except.pure]
  all_goals omega

/-- What phase 2 answers: the Direct state, the Table state, or a fault of the model where the generator search
ends empty. -/
theorem createCommit_cases (s : State) (f : Poly) (m : Nat) (strategy : Strategy) :
    (strategy = .direct ∧ createCommit s f m strategy = .ok (s.setDescriptor f m .direct))
      ∨ (∃ g, strategy = .table ∧ searchGenerator f m = some g
          ∧ createCommit s f m strategy = .ok (((build f m g s).setGenerator g).setDescriptor f m .table))
      ∨ (strategy = .table ∧ searchGenerator f m = none ∧ createCommit s f m strategy = modelFault .noGenerator) := by
  cases strategy with
  | direct => exact .inl ⟨rfl, rfl⟩
  | table =>
    cases h : searchGenerator f m with
    | none => exact .inr (.inr ⟨rfl, rfl, by simp [createCommit, findGenerator, h]⟩)
    | some g => exact .inr (.inl ⟨g, rfl, rfl, by simp [createCommit, findGenerator, h, pure, Except.pure]⟩)

/-- CREATE in terms of its two phases. -/
theorem execCreate_eq (m : Nat) (modulus : Option Word) (hint : Hint) (fb : Bool) (s : State) :
    execCreate m modulus hint fb s =
      conclude s (createChecks s m modulus hint fb >>= fun c =>
        createCommit s c.1 m c.2 >>= fun t => pure (t, zext128 0)) := rfl

/-- If CREATE answers a next state: an error's response and nothing else, or the Direct context, or the Table
context. -/
theorem execCreate_next {m : Nat} {modulus : Option Word} {hint : Hint} {fb : Bool} {s t : State}
    (h : execCreate m modulus hint fb s = .next t) :
    (∃ code, createChecks s m modulus hint fb = raise code ∧ t = s.respond (.err code))
      ∨ (∃ f, createChecks s m modulus hint fb = .ok (f, .direct)
          ∧ t = (s.setDescriptor f m .direct).respond (.ok (zext128 0)))
      ∨ ∃ f g, createChecks s m modulus hint fb = .ok (f, .table) ∧ searchGenerator f m = some g
          ∧ t = (((build f m g s).setGenerator g).setDescriptor f m .table).respond (.ok (zext128 0)) := by
  rw [execCreate_eq] at h
  rcases cmd_cases (createChecks s m modulus hint fb) with ⟨⟨f, strategy⟩, hc⟩ | ⟨code, hc⟩ | ⟨e, hc⟩ <;>
    rw [hc] at h
  · rcases createCommit_cases s f m strategy with ⟨rfl, hk⟩ | ⟨g, rfl, hg, hk⟩ | ⟨rfl, _, hk⟩ <;>
      simp [hk] at h
    · exact .inr (.inl ⟨f, hc, h.symm⟩)
    · exact .inr (.inr ⟨f, g, hc, hg, h.symm⟩)
  · simp at h
    exact .inl ⟨code, hc, h.symm⟩
  · simp at h

/-! ### The commands and one step -/

/-- Every command but CREATE is one `deliver`: it writes no architectural state (rules R13, R29). -/
theorem exec_eq_deliver (i : Instr) (s : State) (h : ∀ m modulus hint fb, i ≠ .create m modulus hint fb) :
    ∃ c, exec i s = deliver s c := by
  cases i with
  | create m modulus hint fb => exact absurd rfl (h m modulus hint fb)
  | padd a b => exact ⟨.ok (zext128 (polyAdd a.toNat b.toNat)), rfl⟩
  | pclmul a b => exact ⟨.ok (zext128 (clmul a.toNat b.toNat)), rfl⟩
  | _ => exact ⟨_, rfl⟩

/-- A command never refuses. -/
theorem exec_ne_refused (i : Instr) (s : State) (r : Refusal) : exec i s ≠ .refused r := by
  by_cases h : ∀ m modulus hint fb, i ≠ .create m modulus hint fb
  · obtain ⟨c, hc⟩ := exec_eq_deliver i s h
    rw [hc]
    exact conclude_ne_refused s _ r
  · simp only [not_forall, not_not] at h
    obtain ⟨m, modulus, hint, fb, rfl⟩ := h
    show execCreate m modulus hint fb s ≠ _
    rw [execCreate_eq]
    exact conclude_ne_refused s _ r

/-- What one step does, for each thing the command port can hold. -/
theorem step_cases (s : State) :
    (s.cmdPort = [] ∧ step s = .next s)
      ∨ (∃ rest, s.cmdPort = .reset :: rest ∧ step s = .next (State.assertReset { s with cmdPort := rest }))
      ∨ (∃ p rest e, s.cmdPort = .packet p :: rest ∧ decode p = .error e
          ∧ step s = .next (State.respond { s with cmdPort := rest } (.err .illegalCommand)))
      ∨ ∃ p rest i, s.cmdPort = .packet p :: rest ∧ decode p = .ok i ∧ step s = exec i { s with cmdPort := rest } := by
  cases h : s.cmdPort with
  | nil => exact .inl ⟨rfl, by simp [step, takeInput_nil h]⟩
  | cons input rest =>
    cases input with
    | reset => exact .inr (.inl ⟨rest, rfl, by simp [step, takeInput_cons h]⟩)
    | packet p =>
      cases hd : decode p with
      | error e => exact .inr (.inr (.inl ⟨p, rest, e, rfl, hd, by simp [step, takeInput_cons h, runPacket, hd]⟩))
      | ok i => exact .inr (.inr (.inr ⟨p, rest, i, rfl, hd, by simp [step, takeInput_cons h, runPacket, hd]⟩))

end Sys2Proof.Machine
end

