-- ==== Sys2Proof/Laws/PerInstr.lean ====
section
/-! SUPPORT. The family EncodedRow: the header of every well-formed command selects the command's own row of the
opcode table (30_encoding.md rules R62, R66), one lemma per constructor of Instr. -/

namespace Sys2Proof.Laws.EncodedRow

open Sys2Proof

/-- The encoded header selects the command's row. -/
def Statement (i : Instr) : Prop := i.wellFormed = true → findRow (encode i).w0 = some i.op

theorem findRow_plainHeader : ∀ o ∈ [Op.padd, .pclmul, .findgen, .rdalog, .rdlog, .fadd, .fmul, .fdiv, .finv, .card,
    .char, .deg], findRow (plainHeader o) = some o := by decide

theorem findRow_degreeHeader_bits :
    ∀ d : BitVec 7, ∀ o ∈ [Op.preduce, .pmodmul, .pmodexp, .isirred, .selcanon],
      findRow (o.opcode.setWidth 64 ||| d.setWidth 64 <<< 8) = some o := by decide +kernel

theorem findRow_degreeHeader {o : Op} (m : Nat) (h : o ∈ [Op.preduce, .pmodmul, .pmodexp, .isirred, .selcanon]) :
    findRow (degreeHeader o m) = some o :=
  findRow_degreeHeader_bits (BitVec.ofNat 7 m) o h

theorem findRow_createHeader_bits :
    ∀ d : BitVec 7, ∀ b : BitVec 4, b.extractLsb' 0 2 ≠ 3#2 →
      findRow (Op.create.opcode.setWidth 64 ||| d.setWidth 64 <<< 8 ||| (b.extractLsb' 0 2).setWidth 64 <<< 16
        ||| (b.extractLsb' 2 1).setWidth 64 <<< 18 ||| (b.extractLsb' 3 1).setWidth 64 <<< 19)
        = some Op.create := by decide +kernel

theorem findRow_createHeader (m : Nat) (hasmod : Bool) (hint : Hint) (fb : Bool) :
    findRow (createHeader m hasmod hint fb) = some .create := by
  have h := findRow_createHeader_bits (BitVec.ofNat 7 m) (BitVec.ofBool fb ++ BitVec.ofBool hasmod ++ hint.toBits)
  cases hint <;> cases hasmod <;> cases fb <;> exact h (by decide)

theorem padd (a b : Word) : Statement (.padd a b) := fun _ => findRow_plainHeader _ (by decide)
theorem pclmul (a b : Word) : Statement (.pclmul a b) := fun _ => findRow_plainHeader _ (by decide)
theorem preduce (wide : Wide) (modulus : Word) (m : Nat) : Statement (.preduce wide modulus m) :=
  fun _ => findRow_degreeHeader m (by decide)
theorem pmodmul (a b modulus : Word) (m : Nat) : Statement (.pmodmul a b modulus m) :=
  fun _ => findRow_degreeHeader m (by decide)
theorem pmodexp (base exponent modulus : Word) (m : Nat) : Statement (.pmodexp base exponent modulus m) :=
  fun _ => findRow_degreeHeader m (by decide)
theorem isirred (poly : Word) (m : Nat) : Statement (.isirred poly m) := fun _ => findRow_degreeHeader m (by decide)
theorem selcanon (m : Nat) : Statement (.selcanon m) := fun _ => findRow_degreeHeader m (by decide)
theorem create (m : Nat) (modulus : Option Word) (hint : Hint) (fb : Bool) :
    Statement (.create m modulus hint fb) := fun _ => findRow_createHeader m modulus.isSome hint fb
theorem findgen : Statement .findgen := fun _ => findRow_plainHeader _ (by decide)
theorem rdalog (i : Word) : Statement (.rdalog i) := fun _ => findRow_plainHeader _ (by decide)
theorem rdlog (a : Word) : Statement (.rdlog a) := fun _ => findRow_plainHeader _ (by decide)
theorem fadd (a b : Word) : Statement (.fadd a b) := fun _ => findRow_plainHeader _ (by decide)
theorem fmul (a b : Word) : Statement (.fmul a b) := fun _ => findRow_plainHeader _ (by decide)
theorem fdiv (a b : Word) : Statement (.fdiv a b) := fun _ => findRow_plainHeader _ (by decide)
theorem finv (a : Word) : Statement (.finv a) := fun _ => findRow_plainHeader _ (by decide)
theorem card : Statement .card := fun _ => findRow_plainHeader _ (by decide)
theorem char : Statement .char := fun _ => findRow_plainHeader _ (by decide)
theorem deg : Statement .deg := fun _ => findRow_plainHeader _ (by decide)

end Sys2Proof.Laws.EncodedRow
end

