-- ==== Sys2Proof/Laws/Poly.lean ====
section
/-! SUPPORT. The polynomials of the engine, natural numbers read bit by bit, as Mathlib's polynomials over ZMod 2:
`toPoly` carries xor to addition, `clmul` to multiplication and `reduce` to the remainder by a monic polynomial. -/

namespace Sys2Proof.Machine

open Polynomial

/-- The polynomial a natural number stands for: bit i is the coefficient of x^i (00_scope.md rule R9). -/
noncomputable def toPoly (n : Nat) : (ZMod 2)[X] :=
  ∑ i ∈ Finset.range (Nat.log2 n + 1), if n.testBit i then X ^ i else 0

theorem testBit_false_of_log2_lt {n i : Nat} (h : Nat.log2 n < i) : n.testBit i = false :=
  Nat.testBit_lt_two_pow (Nat.lt_log2_self.trans_le (Nat.pow_le_pow_right (by decide) h))

/-- The coefficients of `toPoly n` are the bits of `n`. -/
theorem coeff_toPoly (n i : Nat) : (toPoly n).coeff i = if n.testBit i then 1 else 0 := by
  unfold toPoly
  rw [finsetSum_coeff]
  by_cases hi : i < Nat.log2 n + 1
  · rw [Finset.sum_eq_single i]
    · split <;> simp_all
    · intro j _ hj
      split
      · simp [coeff_X_pow, Ne.symm hj]
      · simp
    · intro h
      exact absurd (Finset.mem_range.mpr hi) h
  · rw [testBit_false_of_log2_lt (by omega), Finset.sum_eq_zero]
    · simp
    · intro j hj
      have : j ≠ i := by have := Finset.mem_range.mp hj; omega
      split
      · simp [coeff_X_pow, Ne.symm this]
      · simp

theorem toPoly_injective {a b : Nat} (h : toPoly a = toPoly b) : a = b := by
  apply Nat.eq_of_testBit_eq
  intro i
  have := congrArg (fun p => p.coeff i) h
  simp only [coeff_toPoly] at this
  cases ha : a.testBit i <;> cases hb : b.testBit i <;> simp_all

@[simp] theorem toPoly_zero : toPoly 0 = 0 := by
  ext i
  simp [coeff_toPoly]

@[simp] theorem toPoly_one : toPoly 1 = 1 := by
  ext i
  rw [coeff_toPoly, coeff_one]
  by_cases h : i = 0 <;> simp [h, Nat.testBit_one_eq_true_iff_self_eq_zero]

theorem toPoly_two : toPoly 2 = X := by
  ext i
  have : Nat.testBit 2 i = decide (1 = i) := Nat.testBit_two_pow (n := 1)
  rw [coeff_toPoly, coeff_X, this]
  by_cases h : 1 = i <;> simp [h]

theorem toPoly_eq_zero {n : Nat} : toPoly n = 0 ↔ n = 0 :=
  ⟨fun h => toPoly_injective (h.trans toPoly_zero.symm), fun h => by rw [h, toPoly_zero]⟩

/-- Carry-less addition is addition in GF(2)[x] (40_ring.md rule R100). -/
@[simp] theorem toPoly_xor (a b : Nat) : toPoly (a ^^^ b) = toPoly a + toPoly b := by
  ext i
  simp only [coeff_add, coeff_toPoly, Nat.testBit_xor]
  cases a.testBit i <;> cases b.testBit i <;> simp
  decide

/-- A shift is multiplication by a power of x (rule R11). -/
@[simp] theorem toPoly_shiftLeft (a s : Nat) : toPoly (a <<< s) = toPoly a * X ^ s := by
  ext i
  rw [coeff_mul_X_pow', coeff_toPoly, Nat.testBit_shiftLeft]
  by_cases h : s ≤ i <;> simp [h, coeff_toPoly]

theorem toPoly_clmulBelow (a b n : Nat) : toPoly (clmulBelow a b n) = toPoly a * toPoly (b % 2 ^ n) := by
  induction n with
  | zero => simp [clmulBelow, Nat.mod_one]
  | succ n ih =>
    have hsplit : b % 2 ^ (n + 1) = (b % 2 ^ n) ^^^ (if b.testBit n then 1 <<< n else 0) := by
      apply Nat.eq_of_testBit_eq
      intro i
      rw [Nat.testBit_mod_two_pow, Nat.testBit_xor, Nat.testBit_mod_two_pow]
      cases hb : b.testBit n
      · by_cases hi : i = n
        · subst hi; simp [hb]
        · have : decide (i < n + 1) = decide (i < n) := decide_eq_decide.mpr (by omega)
          rw [this]
          simp
      · simp only [↓reduceIte, Nat.testBit_shiftLeft]
        by_cases hi : i = n
        · subst hi; simp [hb]
        · by_cases hlt : i < n
          · have h1 : i < n + 1 := by omega
            have h2 : ¬(n ≤ i) := by omega
            simp [hlt, h1, h2]
          · have h1 : ¬(i < n + 1) := by omega
            have h3 : Nat.testBit 1 (i - n) = false := by
              rw [show (1 : Nat) = 2 ^ 0 from rfl, Nat.testBit_two_pow]; simp; omega
            simp [hlt, h1, h3]
    rw [clmulBelow, toPoly_xor, ih, hsplit, toPoly_xor, mul_add]
    congr 1
    split <;> simp

/-- `clmul` is multiplication in GF(2)[x] (rule R102). -/
@[simp] theorem toPoly_clmul (a b : Nat) : toPoly (clmul a b) = toPoly a * toPoly b := by
  rw [clmul, toPoly_clmulBelow, Nat.mod_eq_of_lt Nat.lt_log2_self]

/-- The degree of a nonzero number's polynomial is the index of its highest set bit (rule R11). -/
theorem natDegree_toPoly {n : Nat} (h : n ≠ 0) : (toPoly n).natDegree = Nat.log2 n := by
  apply natDegree_eq_of_le_of_coeff_ne_zero
  · rw [natDegree_le_iff_coeff_eq_zero]
    intro i hi
    rw [coeff_toPoly, testBit_false_of_log2_lt hi]
    simp
  · rw [coeff_toPoly, Nat.testBit_log2 h]
    simp

theorem degree_toPoly {n : Nat} (h : n ≠ 0) : (toPoly n).degree = (Nat.log2 n : WithBot Nat) := by
  rw [degree_eq_natDegree (mt toPoly_eq_zero.mp h), natDegree_toPoly h]

/-- `deg(n) < m` in all three spellings. -/
theorem degree_toPoly_lt {n m : Nat} : (toPoly n).degree < (m : WithBot Nat) ↔ n < 2 ^ m := by
  by_cases h : n = 0
  · subst h
    simp
  · rw [degree_toPoly h, Nat.cast_lt, Nat.log2_lt h]

theorem deg_lt_iff {n m : Nat} : deg n < (m : Int) ↔ n < 2 ^ m := by
  unfold deg
  by_cases h : n = 0
  · subst h
    simp
    omega
  · rw [if_neg h, Nat.cast_lt, Nat.log2_lt h]

theorem deg_of_ne_zero {n : Nat} (h : n ≠ 0) : deg n = (Nat.log2 n : Int) := if_neg h

/-- `deg(f) = m` for a natural number m. -/
theorem deg_eq_iff {f m : Nat} : deg f = (m : Int) ↔ f ≠ 0 ∧ Nat.log2 f = m := by
  unfold deg
  by_cases h : f = 0
  · simp [h]
  · simp [h]

theorem monic_toPoly {n : Nat} (h : n ≠ 0) : (toPoly n).Monic := by
  rw [Monic, leadingCoeff, natDegree_toPoly h, coeff_toPoly, Nat.testBit_log2 h]
  simp

/-- One step of the reduction keeps the residue and clears the top bit. -/
theorem toPoly_reduceStep (w f s : Nat) : toPoly (w ^^^ (f <<< s)) = toPoly w + toPoly f * X ^ s := by simp

theorem reduceStep_lt {w f m : Nat} (hf : deg f = (m : Int)) (hw : (m : Int) ≤ deg w) :
    w ^^^ (f <<< (deg w - m).toNat) < 2 ^ Nat.log2 w := by
  obtain ⟨hf0, hfm⟩ := deg_eq_iff.mp hf
  have hw0 : w ≠ 0 := by
    rintro rfl
    simp [deg] at hw
    omega
  rw [deg_of_ne_zero hw0] at hw ⊢
  have hle : m ≤ Nat.log2 w := by exact_mod_cast hw
  have hs : ((Nat.log2 w : Int) - m).toNat = Nat.log2 w - m := by omega
  rw [hs]
  apply Nat.lt_pow_two_of_testBit
  intro i hi
  rw [Nat.testBit_xor, Nat.testBit_shiftLeft]
  have hd : Nat.log2 w - m ≤ i := by omega
  rcases Nat.eq_or_lt_of_le hi with heq | hgt
  · have : i - (Nat.log2 w - m) = Nat.log2 f := by omega
    rw [← heq] at this ⊢
    rw [Nat.testBit_log2 hw0, this, Nat.testBit_log2 hf0]
    simp
  · rw [testBit_false_of_log2_lt hgt, testBit_false_of_log2_lt (by omega)]
    simp

/-- The loop of rule R104 ends below 2^m and keeps the residue class, given enough steps. -/
theorem reduceLoop_spec {f m : Nat} (hf : deg f = (m : Int)) (steps w : Nat) (h : w < 2 ^ (m + steps)) :
    reduceLoop f m steps w < 2 ^ m ∧ ∃ q, toPoly w = q * toPoly f + toPoly (reduceLoop f m steps w) := by
  induction steps generalizing w with
  | zero => exact ⟨h, 0, by simp [reduceLoop]⟩
  | succ n ih =>
    rw [reduceLoop]
    split
    · rename_i hw
      have hlt := reduceStep_lt hf hw
      have hw0 : w ≠ 0 := by
        rintro rfl
        simp [deg] at hw
        omega
      have hlog : Nat.log2 w < m + (n + 1) := (Nat.log2_lt hw0).mpr h
      obtain ⟨h1, q, hq⟩ := ih _ (hlt.trans_le (Nat.pow_le_pow_right (by decide) (by omega)))
      refine ⟨h1, q - X ^ (deg w - m).toNat, ?_⟩
      rw [toPoly_reduceStep] at hq
      rw [sub_mul, mul_comm (X ^ _) (toPoly f)]
      linear_combination hq
    · rename_i hw
      exact ⟨deg_lt_iff.mp (not_le.mp hw), 0, by simp⟩

/-- `Reduce` returns a value below 2^m (rule R112 (c)). -/
theorem reduce_lt {f m : Nat} (hf : deg f = (m : Int)) (w : Nat) : reduce w f m < 2 ^ m :=
  (reduceLoop_spec hf _ w (Nat.lt_log2_self.trans_le (Nat.pow_le_pow_right (by decide) (by omega)))).1

/-- `Reduce` is the remainder by the modulus (rule R104). -/
theorem toPoly_reduce {f m : Nat} (hf : deg f = (m : Int)) (w : Nat) :
    toPoly (reduce w f m) = toPoly w %ₘ toPoly f := by
  obtain ⟨hf0, hfm⟩ := deg_eq_iff.mp hf
  obtain ⟨hlt, q, hq⟩ := reduceLoop_spec hf (Nat.log2 w + 1) w
    (Nat.lt_log2_self.trans_le (Nat.pow_le_pow_right (by decide) (by omega)))
  have hdeg : (toPoly (reduce w f m)).degree < (toPoly f).degree := by
    rw [degree_toPoly hf0, hfm]
    exact degree_toPoly_lt.mpr hlt
  refine ((div_modByMonic_unique q _ (monic_toPoly hf0) ⟨?_, hdeg⟩).2).symm
  rw [hq, reduce]
  ring

/-- `ModMultiply` is the product's remainder (rule R106). -/
theorem toPoly_modMultiply {f m : Nat} (hf : deg f = (m : Int)) (a b : Nat) :
    toPoly (modMultiply a b f m) = (toPoly a * toPoly b) %ₘ toPoly f := by
  rw [modMultiply, toPoly_reduce hf, toPoly_clmul]

theorem modMultiply_lt {f m : Nat} (hf : deg f = (m : Int)) (a b : Nat) : modMultiply a b f m < 2 ^ m :=
  reduce_lt hf _

/-! ### Residues

The quotient ring GF(2)[x]/(f) of rules R106 and R108, as Mathlib's `AdjoinRoot`. -/

/-- The residue of a number's polynomial modulo f. -/
noncomputable def residue (f n : Nat) : AdjoinRoot (toPoly f) := AdjoinRoot.mk (toPoly f) (toPoly n)

@[simp] theorem residue_zero (f : Nat) : residue f 0 = 0 := by simp [residue]

@[simp] theorem residue_one (f : Nat) : residue f 1 = 1 := by simp [residue]

@[simp] theorem residue_xor (f a b : Nat) : residue f (a ^^^ b) = residue f a + residue f b := by simp [residue]

@[simp] theorem residue_clmul (f a b : Nat) : residue f (clmul a b) = residue f a * residue f b := by
  simp [residue]

theorem residue_eq_iff {f a b : Nat} : residue f a = residue f b ↔ toPoly f ∣ toPoly a - toPoly b :=
  AdjoinRoot.mk_eq_mk

/-- `Reduce` keeps the residue. -/
theorem residue_reduce {f m : Nat} (hf : deg f = (m : Int)) (w : Nat) : residue f (reduce w f m) = residue f w := by
  obtain ⟨_, q, hq⟩ := reduceLoop_spec hf (Nat.log2 w + 1) w
    (Nat.lt_log2_self.trans_le (Nat.pow_le_pow_right (by decide) (by omega)))
  rw [residue_eq_iff]
  exact ⟨-q, by rw [hq, reduce]; ring⟩

/-- Numbers below 2^m with one residue are equal: the remainder is unique (rule R104). -/
theorem eq_of_residue_eq {f m a b : Nat} (hf : deg f = (m : Int)) (ha : a < 2 ^ m) (hb : b < 2 ^ m)
    (h : residue f a = residue f b) : a = b := by
  obtain ⟨hf0, hfm⟩ := deg_eq_iff.mp hf
  rw [residue_eq_iff] at h
  apply toPoly_injective
  rw [← sub_eq_zero]
  apply eq_zero_of_dvd_of_degree_lt h
  rw [degree_toPoly hf0, hfm]
  exact (degree_sub_le _ _).trans_lt (max_lt (degree_toPoly_lt.mpr ha) (degree_toPoly_lt.mpr hb))

/-- `Reduce` leaves a value below 2^m as it is (rule R104). -/
theorem reduce_of_lt {f m w : Nat} (hf : deg f = (m : Int)) (hw : w < 2 ^ m) : reduce w f m = w :=
  eq_of_residue_eq hf (reduce_lt hf w) hw (residue_reduce hf w)

@[simp] theorem residue_modMultiply {f m : Nat} (hf : deg f = (m : Int)) (a b : Nat) :
    residue f (modMultiply a b f m) = residue f a * residue f b := by
  rw [modMultiply, residue_reduce hf, residue_clmul]

/-- The repeated-squaring loop multiplies its result by b^e (rule R108), given a round for each bit of e. -/
theorem residue_modExpLoop {f m : Nat} (hf : deg f = (m : Int)) (steps result b e : Nat) (he : e < 2 ^ steps) :
    residue f (modExpLoop f m steps result b e) = residue f result * residue f b ^ e := by
  induction steps generalizing result b e with
  | zero =>
    have : e = 0 := by simpa using he
    subst this
    simp [modExpLoop]
  | succ n ih =>
    rw [modExpLoop]
    split
    · rename_i h0
      simp [h0]
    · have hhalf : e >>> 1 = e / 2 := Nat.shiftRight_eq_div_pow e 1
      rw [ih _ _ _ (by rw [hhalf]; omega), residue_modMultiply hf, hhalf, ← sq, ← pow_mul]
      cases hbit : e.testBit 0 with
      | true =>
        have : e = 2 * (e / 2) + 1 := by simp [Nat.testBit_zero] at hbit; omega
        rw [if_pos rfl, residue_modMultiply hf, mul_assoc, ← pow_succ', ← this]
      | false =>
        have : e = 2 * (e / 2) := by simp [Nat.testBit_zero] at hbit; omega
        rw [if_neg (by decide), ← this]

/-- `ModExponentiate` is the power of the residue (rule R108). -/
theorem residue_modExponentiate {f m : Nat} (hf : deg f = (m : Int)) (base e : Nat) :
    residue f (modExponentiate base e f m) = residue f base ^ e := by
  rw [modExponentiate, residue_modExpLoop hf _ _ _ _ Nat.lt_log2_self, residue_reduce hf, residue_reduce hf,
    residue_one, one_mul]

theorem modExpLoop_lt {f m : Nat} (hf : deg f = (m : Int)) (steps result b e : Nat) (hr : result < 2 ^ m) :
    modExpLoop f m steps result b e < 2 ^ m := by
  induction steps generalizing result b e with
  | zero => exact hr
  | succ n ih =>
    rw [modExpLoop]
    split
    · exact hr
    · apply ih
      split
      · exact modMultiply_lt hf _ _
      · exact hr

/-- `ModExponentiate` returns a value below 2^m (rule R112 (c)). -/
theorem modExponentiate_lt {f m : Nat} (hf : deg f = (m : Int)) (base e : Nat) :
    modExponentiate base e f m < 2 ^ m :=
  modExpLoop_lt hf _ _ _ _ (reduce_lt hf 1)

/-! ### Division, gcd and inversion -/

theorem divStep_lt {b r : Nat} (hb : b ≠ 0) (h : deg b ≤ deg r) :
    r ^^^ (b <<< (deg r - deg b).toNat) < 2 ^ Nat.log2 r := by
  have hbd : deg b = ((Nat.log2 b : Nat) : Int) := deg_of_ne_zero hb
  rw [hbd] at h ⊢
  exact reduceStep_lt hbd h

/-- The division loop of rule R11 keeps `a = q b + r` and ends with `deg(r) < deg(b)`, given enough steps. -/
theorem polyDivModLoop_spec {b : Nat} (hb : b ≠ 0) (steps q r : Nat) (h : r < 2 ^ steps) :
    deg (polyDivModLoop b steps q r).2 < deg b
      ∧ toPoly (polyDivModLoop b steps q r).1 * toPoly b + toPoly (polyDivModLoop b steps q r).2
        = toPoly q * toPoly b + toPoly r := by
  have hbd : deg b = ((Nat.log2 b : Nat) : Int) := deg_of_ne_zero hb
  induction steps generalizing q r with
  | zero =>
    have : r = 0 := by simpa using h
    subst this
    refine ⟨?_, by simp [polyDivModLoop]⟩
    rw [hbd]
    simp [polyDivModLoop, deg]
    omega
  | succ n ih =>
    rw [polyDivModLoop]
    split
    · rename_i hle
      have hr0 : r ≠ 0 := by
        rintro rfl
        rw [hbd] at hle
        simp [deg] at hle
        omega
      have hlt := divStep_lt hb hle
      have hlog : Nat.log2 r < n + 1 := (Nat.log2_lt hr0).mpr h
      obtain ⟨h1, h2⟩ := ih (q ^^^ (1 <<< (deg r - deg b).toNat)) _
        (hlt.trans_le (Nat.pow_le_pow_right (by decide) (by omega)))
      refine ⟨h1, h2.trans ?_⟩
      have htwo : toPoly b * X ^ (deg r - deg b).toNat + toPoly b * X ^ (deg r - deg b).toNat = 0 :=
        CharTwo.add_self_eq_zero _
      simp only [toPoly_xor, toPoly_shiftLeft, toPoly_one, one_mul]
      linear_combination htwo
    · rename_i hlt
      exact ⟨not_le.mp hlt, rfl⟩

/-- `PolyDivMod` (rule R11): `a = q b + r` with `deg(r) < deg(b)`. -/
theorem polyDivMod_spec (a : Nat) {b : Nat} (hb : b ≠ 0) :
    deg (polyDivMod a b).2 < deg b
      ∧ toPoly a = toPoly (polyDivMod a b).1 * toPoly b + toPoly (polyDivMod a b).2 := by
  obtain ⟨h1, h2⟩ := polyDivModLoop_spec hb (Nat.log2 a + 1) 0 a Nat.lt_log2_self
  exact ⟨h1, by rw [polyDivMod, h2]; simp⟩

theorem polyDivMod_snd_lt (a : Nat) {b : Nat} (hb : b ≠ 0) : (polyDivMod a b).2 < 2 ^ Nat.log2 b := by
  rw [← deg_lt_iff, ← deg_of_ne_zero hb]
  exact (polyDivMod_spec a hb).1

/-- The common divisors of a and b are the divisors of the gcd loop's result, given a round for each degree. -/
theorem dvd_polyGcdLoop (n a b : Nat) (h : b < 2 ^ n) (d : (ZMod 2)[X]) :
    d ∣ toPoly (polyGcdLoop (n + 1) a b) ↔ d ∣ toPoly a ∧ d ∣ toPoly b := by
  induction n generalizing a b with
  | zero =>
    have : b = 0 := by simpa using h
    subst this
    simp [polyGcdLoop]
  | succ n ih =>
    rw [polyGcdLoop]
    split
    · rename_i h0
      simp [h0]
    · rename_i hb
      have hlog : Nat.log2 b < n + 1 := (Nat.log2_lt hb).mpr h
      rw [ih _ _ ((polyDivMod_snd_lt a hb).trans_le (Nat.pow_le_pow_right (by decide) (by omega))),
        (polyDivMod_spec a hb).2, and_comm]
      constructor
      · rintro ⟨hr, hd⟩
        exact ⟨dvd_add (hd.mul_left _) hr, hd⟩
      · rintro ⟨ha, hd⟩
        exact ⟨(dvd_add_right (hd.mul_left _)).mp ha, hd⟩

/-- `PolyGcd` (rule R11): its divisors are the common divisors. -/
theorem dvd_polyGcd (a b : Nat) (d : (ZMod 2)[X]) :
    d ∣ toPoly (polyGcd a b) ↔ d ∣ toPoly a ∧ d ∣ toPoly b :=
  dvd_polyGcdLoop (Nat.log2 b + 1) a b Nat.lt_log2_self d

/-- The invariant of the extended Euclid loop, `r_k ≡ s_k · a (mod f)` (43_context.md rule R178). -/
theorem residue_polyInvLoop {f a : Nat} (steps r0 r1 s0 s1 : Nat) (h0 : residue f s0 * residue f a = residue f r0)
    (h1 : residue f s1 * residue f a = residue f r1) :
    residue f (polyInvLoop steps r0 r1 s0 s1) * residue f a = residue f (polyGcdLoop steps r0 r1) := by
  induction steps generalizing r0 r1 s0 s1 with
  | zero => exact h0
  | succ n ih =>
    rw [polyInvLoop, polyGcdLoop]
    split
    · exact h0
    · rename_i hr1
      have hdiv : residue f r0
          = residue f (polyDivMod r0 r1).1 * residue f r1 + residue f (polyDivMod r0 r1).2 := by
        simp only [residue, ← map_mul, ← map_add, ← (polyDivMod_spec r0 hr1).2]
      refine ih _ _ _ _ h1 ?_
      have htwo : residue f (polyDivMod r0 r1).1 * residue f r1 + residue f (polyDivMod r0 r1).1 * residue f r1 = 0 := by
        rw [← residue_clmul, ← residue_xor, Nat.xor_self, residue_zero]
      rw [residue_xor, residue_clmul, add_mul, h0, mul_assoc, h1, hdiv]
      linear_combination htwo

/-- `PolyInv(a, f)` times a is `PolyGcd(f, a)` modulo f (rule R178). -/
theorem residue_polyInv (a f : Nat) : residue f (polyInv a f) * residue f a = residue f (polyGcd f a) :=
  residue_polyInvLoop _ f a 0 1 (by rw [residue_zero, zero_mul]; exact (AdjoinRoot.mk_self).symm)
    (by rw [residue_one, one_mul])

end Sys2Proof.Machine
end

