-- ==== Sys2Proof/Tests/Slice0.lean ====
section
/-! SUPPORT. The model's own tests. Every expected value is from the spec: the vectors of 95_test_vectors.md, the worked
encodings of 30_encoding.md rule R75, or the words of rule R62's fields written out. After them, a witness for the
hypotheses of every statement that has some. -/

namespace Sys2Proof.Tests

open Sys2Proof Machine

set_option Elab.async false

/-! ### WellFormed: an ill-formed term for its one check, the degree that fits no MDEG, in every row that has one -/

theorem test_wellFormed_preduce : (Instr.preduce 0#128 0#64 128).wellFormed = false := by decide
theorem test_wellFormed_pmodmul : (Instr.pmodmul 0#64 0#64 0#64 128).wellFormed = false := by decide
theorem test_wellFormed_pmodexp : (Instr.pmodexp 0#64 0#64 0#64 200).wellFormed = false := by decide
theorem test_wellFormed_isirred : (Instr.isirred 0#64 128).wellFormed = false := by decide
theorem test_wellFormed_selcanon : (Instr.selcanon 128).wellFormed = false := by decide
theorem test_wellFormed_create : (Instr.create 128 none .auto false).wellFormed = false := by decide
theorem test_wellFormed_largest : (Instr.selcanon 127).wellFormed = true := by decide

/-! ### Decode: one word per constructor, from rules R62, R66, R67 and R75 -/

theorem test_decode_padd : decode ⟨0x10#64, 5#64, 3#64, 0#64, 0#64⟩ = .ok (.padd 5#64 3#64) := by decide
theorem test_decode_pclmul : decode ⟨0x11#64, 0x57#64, 0x83#64, 0#64, 0#64⟩ = .ok (.pclmul 0x57#64 0x83#64) := by decide
theorem test_decode_preduce : decode ⟨0x812#64, 0x2B79#64, 1#64, 0x11B#64, 0#64⟩
    = .ok (.preduce 0x10000000000002B79#128 0x11B#64 8) := by decide
theorem test_decode_pmodmul : decode ⟨0x813#64, 0x57#64, 0x83#64, 0x11B#64, 0#64⟩
    = .ok (.pmodmul 0x57#64 0x83#64 0x11B#64 8) := by decide
theorem test_decode_pmodexp : decode ⟨0x414#64, 2#64, 15#64, 0x13#64, 0#64⟩
    = .ok (.pmodexp 2#64 15#64 0x13#64 4) := by decide
theorem test_decode_isirred : decode ⟨0x420#64, 0x13#64, 0xAAAA#64, 0xBBBB#64, 0xCCCC#64⟩
    = .ok (.isirred 0x13#64 4) := by decide
theorem test_decode_selcanon : decode ⟨0x3F21#64, 0x1111#64, 0x2222#64, 0x3333#64, 0x4444#64⟩
    = .ok (.selcanon 63) := by decide
theorem test_decode_create : decode ⟨0xE0430#64, 0x15#64, 0#64, 0#64, 0#64⟩
    = .ok (.create 4 (some 0x15#64) .table true) := by decide
theorem test_decode_create_no_modulus : decode ⟨0x20430#64, 0xFFFF#64, 0#64, 0#64, 0#64⟩
    = .ok (.create 4 none .table false) := by decide
theorem test_decode_findgen : decode ⟨0x31#64, 0#64, 0#64, 0#64, 0#64⟩ = .ok .findgen := by decide
theorem test_decode_rdalog : decode ⟨0x32#64, 4#64, 0#64, 0#64, 0#64⟩ = .ok (.rdalog 4#64) := by decide
theorem test_decode_rdlog : decode ⟨0x33#64, 9#64, 0#64, 0#64, 0#64⟩ = .ok (.rdlog 9#64) := by decide
theorem test_decode_fadd : decode ⟨0x40#64, 5#64, 3#64, 0#64, 0#64⟩ = .ok (.fadd 5#64 3#64) := by decide
theorem test_decode_fmul : decode ⟨0x41#64, 7#64, 6#64, 0#64, 0#64⟩ = .ok (.fmul 7#64 6#64) := by decide
theorem test_decode_fdiv : decode ⟨0x42#64, 9#64, 7#64, 0#64, 0#64⟩ = .ok (.fdiv 9#64 7#64) := by decide
theorem test_decode_finv : decode ⟨0x43#64, 6#64, 0#64, 0#64, 0#64⟩ = .ok (.finv 6#64) := by decide
theorem test_decode_card : decode ⟨0x50#64, 0#64, 0#64, 0#64, 0#64⟩ = .ok .card := by decide
theorem test_decode_char : decode ⟨0x51#64, 0#64, 0#64, 0#64, 0#64⟩ = .ok .char := by decide
theorem test_decode_deg : decode ⟨0x52#64, 0#64, 0#64, 0#64, 0#64⟩ = .ok .deg := by decide

/-- Section 2.5: unassigned opcode, reserved bits 15 and 63, MDEG in PADD, STRAT in FMUL, STRAT = 3 in CREATE. -/
theorem test_decode_illegal :
    decode ⟨0x00#64, 0#64, 0#64, 0#64, 0#64⟩ = .error .unknownOpcode
      ∧ decode ⟨0x8010#64, 5#64, 3#64, 0#64, 0#64⟩ = .error .reservedBit
      ∧ decode ⟨0x8000000000000010#64, 5#64, 3#64, 0#64, 0#64⟩ = .error .reservedBit
      ∧ decode ⟨0x410#64, 5#64, 3#64, 0#64, 0#64⟩ = .error .degreeNotUsed
      ∧ decode ⟨0x10041#64, 7#64, 7#64, 0#64, 0#64⟩ = .error .createFieldNotUsed
      ∧ decode ⟨0x70430#64, 0x13#64, 0#64, 0#64, 0#64⟩ = .error .reservedStrategy := by decide

/-- Rule R75: the 40 bytes of `FMUL 7, 7`; one byte fewer is no packet. -/
theorem test_decode_bytes :
    decodeBytes ([0x41#8, 0, 0, 0, 0, 0, 0, 0, 7, 0, 0, 0, 0, 0, 0, 0, 7, 0, 0, 0, 0, 0, 0, 0] ++ List.replicate 16 0)
        = .ok (.fmul 7#64 7#64, [])
      ∧ decodeBytes (List.replicate 39 0x41#8) = .error .truncated := by decide

theorem test_decodeTableWord :
    decodeTableWord 64 0x60430 = some (.create 4 (some 0#64) .table false)
      ∧ decodeTableWord 192 0x0000000000000003_0000000000000005_0000000000000010 = some (.padd 5#64 3#64)
      ∧ decodeTableWord 64 0x53 = none := by decide

/-- Rule R72: forms of operands, a comment, and a degree that fits no MDEG. -/
theorem test_readLine :
    readLine "CREATE 8, 0x101, AUTO, FB ; fallback".toList = .ok (some (.create 8 (some 0x101#64) .auto true))
      ∧ readLine "  CREATE 30, -, TABLE".toList = .ok (some (.create 30 none .table false))
      ∧ readLine "FDIV 0b1001,0xf".toList = .ok (some (.fdiv 9#64 15#64))
      ∧ readLine "; nothing".toList = .ok none
      ∧ readLine "SELCANON 128".toList = .error .tooLarge
      ∧ readLine "SQUARE 7".toList = .error .unknownMnemonic := by decide

/-! ### States and answers -/

/-- The response a command delivers from `s`. -/
def answer (i : Instr) (s : State) : Option Response :=
  match exec i s with
  | .next t => t.respPort.getLast?
  | _ => none

/-- The state a command leaves. -/
def after (i : Instr) (s : State) : Option State :=
  match exec i s with
  | .next t => some t
  | _ => none

/-- A context for the tests, with no table entries. -/
def context (m : BitVec 6) (modulus : BitVec 64) (strategy : Strategy) (generator : BitVec 63) : State :=
  { State.reset with ctxValid := true, ctxM := m, ctxMod := modulus, ctxStrat := strategy, ctxGen := generator }

/-- `CREATE 4, 0x13, DIRECT`. -/
def gf16 : State := context 4 0x13 .direct 0

/-- `CREATE 8, -, DIRECT`. -/
def gf256 : State := context 8 0x11B .direct 0

/-- `CREATE 2, -, TABLE`: the end state of program 5, part 3. -/
def gf4 : State := { context 2 7 .table 2 with antilog := [(0, 1), (1, 2), (2, 3)], log := [(1, 0), (2, 1), (3, 2)] }

/-- `CREATE 1, 0b11, TABLE`. -/
def gf2 : State := { context 1 3 .table 1 with antilog := [(0, 1)], log := [(1, 0)] }

/-! ### One step of each command, values of 95_test_vectors.md part 2 -/

theorem test_padd_no_carry : answer (.padd 0xFFFFFFFFFFFFFFFF#64 1#64) .reset = some (.ok 0xFFFFFFFFFFFFFFFE#128) := by
  decide
theorem test_pclmul_high_word :
    answer (.pclmul 0x8000000000000000#64 0x8000000000000000#64) .reset
      = some (.ok 0x40000000000000000000000000000000#128) := by decide +kernel
theorem test_pclmul_spread :
    answer (.pclmul 0xDEADBEEFCAFEBABE#64 0x0123456789ABCDEF#64) .reset
      = some (.ok 0xC42FDE8B6B5592F099825FE2AF618A#128) := by decide +kernel
theorem test_preduce_all_bits :
    answer (.preduce 0xFFFFFFFFFFFFFFFFFFFFFFFFFFFFFFFF#128 0x8000000000000003#64 63) .reset
      = some (.ok 0x7FFFFFFFFFFFFFF2#128) := by decide +kernel
theorem test_preduce_order_of_errors : answer (.preduce 0x2B79#128 0#64 0) .reset = some (.err .degreeOutOfRange) := by
  decide
theorem test_pmodmul_source_modulus :
    answer (.pmodmul 0x57#64 0x83#64 0x11D#64 8) .reset = some (.ok 0x31#128) := by decide +kernel
theorem test_pmodmul_reduces_operands : answer (.pmodmul 0x1F#64 1#64 0x13#64 4) .reset = some (.ok 0xC#128) := by
  decide +kernel
theorem test_pmodexp_zeroth : answer (.pmodexp 0#64 0#64 0x13#64 4) .reset = some (.ok 1#128) := by decide +kernel
theorem test_pmodexp_full_exponent :
    answer (.pmodexp 2#64 0xFFFFFFFFFFFFFFFF#64 0x11B#64 8) .reset = some (.ok 1#128) := by decide +kernel
theorem test_isirred_gcd_step : answer (.isirred 0x12#64 4) .reset = some (.ok 0#128) := by decide +kernel
theorem test_isirred_degree_one : answer (.isirred 0b10#64 1) .reset = some (.ok 1#128) := by decide +kernel
theorem test_selcanon_pentanomial : answer (.selcanon 8) .reset = some (.ok 0x11B#128) := by decide +kernel
theorem test_selcanon_degree_one : answer (.selcanon 1) .reset = some (.ok 3#128) := by decide +kernel
theorem test_create_table_antilog :
    (after (.create 4 (some 0x13#64) .table false) .reset).map (fun s => s.antilog.map Prod.snd)
      = some [1, 2, 4, 8, 3, 6, 12, 11, 5, 10, 7, 14, 15, 13, 9] := by decide +kernel
theorem test_create_capacity :
    answer (.create 30 (some 0x40000003#64) .table false) .reset = some (.err .capacityExceeded) := by decide +kernel
theorem test_findgen_not_two : answer .findgen gf256 = some (.ok 3#128) := by decide +kernel
theorem test_findgen_degree_one : answer .findgen gf2 = some (.ok 1#128) := by decide +kernel
theorem test_rdalog : answer (.rdalog 2#64) gf4 = some (.ok 3#128) := by decide
theorem test_rdalog_index : answer (.rdalog 3#64) gf4 = some (.err .indexOutOfRange) := by decide
theorem test_rdlog : answer (.rdlog 3#64) gf4 = some (.ok 2#128) := by decide
theorem test_rdlog_direct : answer (.rdlog 0#64) gf16 = some (.err .noTable) := by decide
theorem test_fadd : answer (.fadd 5#64 3#64) gf16 = some (.ok 6#128) := by decide
theorem test_fadd_range : answer (.fadd 0xF#64 0x10#64) gf16 = some (.err .operandOutOfRange) := by decide
theorem test_fmul_direct : answer (.fmul 7#64 7#64) gf16 = some (.ok 6#128) := by decide +kernel
theorem test_fmul_table : answer (.fmul 2#64 3#64) gf4 = some (.ok 1#128) := by decide
theorem test_fdiv_direct : answer (.fdiv 9#64 7#64) gf16 = some (.ok 3#128) := by decide +kernel
theorem test_fdiv_table : answer (.fdiv 3#64 2#64) gf4 = some (.ok 2#128) := by decide
theorem test_finv_direct : answer (.finv 0x53#64) gf256 = some (.ok 0xCA#128) := by decide +kernel
theorem test_finv_table : answer (.finv 2#64) gf4 = some (.ok 3#128) := by decide
theorem test_card : answer .card gf16 = some (.ok 16#128) := by decide
theorem test_char : answer .char gf16 = some (.ok 2#128) := by decide
theorem test_deg : answer .deg gf256 = some (.ok 8#128) := by decide

/-- Rule R64 and program 1: the packets of `Ok(0x2B79)` and of `Err(NoContext)`. -/
theorem test_response_packets :
    (Response.ok 0x2B79#128).toPacket = ⟨0#64, 0x2B79#64, 0#64⟩
      ∧ (Response.err .noContext).toPacket = ⟨0x11#64, 0#64, 0#64⟩ := by decide

/-- An asserted reset ends the context; what it leaves unspecified is not looked at (rule R230). -/
theorem test_reset_ends_the_context :
    ∃ t, step { gf4 with cmdPort := [.reset] } = .next t ∧ t.ctxValid = false ∧ t.cmdPort = [] := ⟨_, rfl, rfl, rfl⟩

/-! ### The laws' own fact: reset's memories are canonical -/

theorem test_reset_tables_canonical : State.reset.tablesCanonical := by decide

/-! ### Witnesses: states and operands that meet the hypotheses of each statement together -/

/-- A command that ends in a next state with the property `P`. -/
theorem next_of_after {i : Instr} {s : State} {P : State → Bool} (h : (after i s).any P = true) :
    ∃ t, exec i s = .next t ∧ P t = true := by
  unfold after at h
  split at h
  · exact ⟨_, ‹_›, h⟩
  · cases h

/-- The command's one response is `r`. -/
def answers (s : State) (r : Response) (t : State) : Bool := decide (t.respPort = s.respPort ++ [r])

/-- `s` with these inputs presented. -/
def presented (s : State) (inputs : List HostInput) : State := { s with cmdPort := inputs }

/-- `CREATE 63, -, DIRECT`. -/
def gf63 : State := context 63 0x8000000000000003 .direct 0

/-- `gf4` after other entries, other responses and another generator history: nothing of it can be read. -/
def gf4' : State :=
  { gf4 with antilog := gf4.antilog ++ [(3, 9)], log := (0, 5) :: gf4.log, resetCount := 2 }

theorem gf2_inv : gf2.Inv := by decide +kernel
theorem gf4_inv : gf4.Inv := by decide +kernel
theorem gf16_inv : gf16.Inv := by decide +kernel
theorem gf256_inv : gf256.Inv := by decide +kernel

theorem test_witness_DecodeOfEncodeIsTheCommand :
    (Instr.create 127 (some 0xFFFFFFFFFFFFFFFF#64) .table true).wellFormed = true
      ∧ (Instr.preduce 0#128 0#64 0).wellFormed = true := by decide

theorem test_witness_DecodedCommandKeepsItsHeader :
    decode ⟨0xA7F30#64, 0xFFFF#64, 1#64, 2#64, 3#64⟩ = .ok (.create 127 none .table true) := by decide

/-- Rule R68 (a) to (e) in turn, then a degree of 64 and a degree of 0. -/
theorem test_witness_IllegalPacketsAreAnsweredIllegalCommand :
    (∀ h, (presented gf16 [.packet ⟨h, 0#64, 0#64, 0#64, 0#64⟩]).cmdPort = .packet ⟨h, 0#64, 0#64, 0#64, 0#64⟩ :: [])
      ∧ (∀ c ∈ [(0x00#64, DecodeError.unknownOpcode), (0x8010#64, .reservedBit), (0x8000000000000010#64, .reservedBit),
            (0x410#64, .degreeNotUsed), (0x40041#64, .createFieldNotUsed), (0x80050#64, .createFieldNotUsed),
            (0x70430#64, .reservedStrategy)],
          decode ⟨c.1, 0#64, 0#64, 0#64, 0#64⟩ = .error c.2)
      ∧ (decode ⟨0x4012#64, 0#64, 0#64, 0#64, 0#64⟩ = .ok (.preduce 0#128 0#64 64)
        ∧ (Instr.preduce 0#128 0#64 64).op.usesDegree = true
        ∧ 63 < Packet.degree ⟨0x4012#64, 0#64, 0#64, 0#64, 0#64⟩)
      ∧ (decode ⟨0x30#64, 0#64, 0#64, 0#64, 0#64⟩ = .ok (.create 0 none .auto false)
        ∧ (Instr.create 0 none .auto false).op.usesDegree = true
        ∧ Packet.degree ⟨0x30#64, 0#64, 0#64, 0#64, 0#64⟩ = 0) := ⟨fun _ => rfl, by decide⟩

/-- `FINV 6` with other words after it, and `CREATE` with `HASMOD = 0` and another A. -/
theorem test_witness_UnusedWordsAreIgnored :
    (findRow 0x43#64 = some .finv ∧ usesA 0#1 .finv = true ∧ usesB .finv = false ∧ usesC .finv = false)
      ∧ (findRow 0x20430#64 = some .create ∧ usesA (Packet.hasmod ⟨0x20430#64, 1#64, 0#64, 0#64, 0#64⟩) .create = false
        ∧ usesB .create = false ∧ usesC .create = false)
      ∧ findRow 0x53#64 = none := by decide

theorem test_witness_SerialisedPacketsAreLittleEndian : 39 < 40 ∧ 23 < 24 := by decide

theorem test_witness_StepExecutesTheDecodedCommand :
    ((presented gf4 [.packet ⟨0x32#64, 2#64, 0#64, 0#64, 0#64⟩, .reset]).cmdPort
        = .packet ⟨0x32#64, 2#64, 0#64, 0#64, 0#64⟩ :: [.reset]
      ∧ decode ⟨0x32#64, 2#64, 0#64, 0#64, 0#64⟩ = .ok (.rdalog 2#64))
      ∧ decodeTableWord 64 0x60430 = some (.create 4 (some 0#64) .table false)
      ∧ decodeTableWord 320 0x50 = some .card := by decide

theorem test_witness_EachPacketGetsOneResponse :
    (∃ t, step gf4 = .next t ∧ gf4.cmdPort = [])
      ∧ (∃ t, step (presented gf4 [.reset]) = .next t ∧ (presented gf4 [.reset]).cmdPort = [.reset])
      ∧ ∃ t, step (presented gf4 [.packet ⟨0x52#64, 0#64, 0#64, 0#64, 0#64⟩]) = .next t
        ∧ (presented gf4 [.packet ⟨0x52#64, 0#64, 0#64, 0#64, 0#64⟩]).cmdPort
          = .packet ⟨0x52#64, 0#64, 0#64, 0#64, 0#64⟩ :: [] :=
  ⟨⟨_, rfl, rfl⟩, ⟨_, rfl, rfl⟩, ⟨_, rfl, rfl⟩⟩

theorem test_witness_ResetEndsTheContext :
    (presented gf4 [.reset]).cmdPort = [.reset] ∧ gf4.ctxValid = true ∧ needsContext .findgen = true
      ∧ needsContext (.fdiv 1#64 0#64) = true := by decide

/-- A cubic over a quadratic: the hypotheses of the degree law, and the largest operands of the bound. -/
theorem test_witness_CarrylessProductLaws :
    (8 : Nat) ≠ 0 ∧ (7 : Nat) ≠ 0 ∧ deg (clmul 8 7) = 5 := by decide

/-- The moduli of degree 63 and 0; a value below 2^63; `{57}·{83} = {2B79}` over `0x11B`; its 6 steps. -/
theorem test_witness_ReduceIsTheRemainder :
    deg 0x8000000000000003 = ((63 : Nat) : Int) ∧ deg 1 = ((0 : Nat) : Int) ∧ (0x7FFFFFFFFFFFFFFF : Nat) < 2 ^ 63
      ∧ deg 0x11B = ((8 : Nat) : Int) ∧ 0xC1 < 2 ^ 8 ∧ 0x2B79 = clmul 0x28 0x11B ^^^ 0xC1
      ∧ deg 0x2B79 - ((8 : Nat) : Int) + 1 ≤ ((6 : Nat) : Int) := by decide +kernel

/-- A modulus of the largest and of the smallest legal degree, for the four modulus commands. -/
theorem test_witness_ModulusOfLegalDegree :
    (1 ≤ 63 ∧ 63 ≤ 63 ∧ deg (0x8000000000000003#64).toNat = ((63 : Nat) : Int))
      ∧ (1 ≤ 1 ∧ 1 ≤ 63 ∧ deg (0b10#64).toNat = ((1 : Nat) : Int)) := by decide +kernel

theorem test_witness_PreduceAnswersTheRemainder :
    1 ≤ 63 ∧ 63 ≤ 63 ∧ deg (0x8000000000000003#64).toNat = ((63 : Nat) : Int) := by decide +kernel

theorem test_witness_ModMultiplyLaws : deg 0x13 = ((4 : Nat) : Int) ∧ deg 1 = ((0 : Nat) : Int) := by decide

theorem test_witness_PmodmulAnswersTheProductsRemainder :
    1 ≤ 8 ∧ 8 ≤ 63 ∧ deg (0x11B#64).toNat = ((8 : Nat) : Int) := by decide

theorem test_witness_PmodexpAnswersThePower :
    1 ≤ 1 ∧ 1 ≤ 63 ∧ deg (0b11#64).toNat = ((1 : Nat) : Int) := by decide

/-- Degrees 0 and 64; a modulus with a bit above m, one without bit m, and 0; `CREATE`'s forms alike. -/
theorem test_witness_DegreeAndTopBitChecks :
    ((0 : Nat) = 0 ∨ 63 < 0) ∧ ((64 : Nat) = 0 ∨ 63 < 64)
      ∧ (1 ≤ 4 ∧ 4 ≤ 63 ∧ deg (0x33#64).toNat ≠ ((4 : Nat) : Int))
      ∧ (1 ≤ 63 ∧ 63 ≤ 63 ∧ deg (0x3#64).toNat ≠ ((63 : Nat) : Int))
      ∧ (1 ≤ 1 ∧ 1 ≤ 63 ∧ deg (0#64).toNat ≠ ((1 : Nat) : Int))
      ∧ (4 < 5 ∧ Nat.testBit 0x33 5 = true) := by decide

theorem test_witness_IsirredDecidesIrreducibility :
    (1 ≤ 1 ∧ 1 ≤ 63 ∧ deg (0b10#64).toNat = ((1 : Nat) : Int))
      ∧ (1 ≤ 63 ∧ 63 ≤ 63 ∧ deg (0x8000000000000003#64).toNat = ((63 : Nat) : Int)) := by decide +kernel

theorem test_witness_CandidatesInCanonicalOrder :
    (2 ≤ 2 ∧ 2 < 4) ∧ 2 ≤ 4 ∧ (3 < 4 ∧ 2 < 3 ∧ 1 < 2 ∧ 1 ≤ 1 ∧ 0x1F = 2 ^ 4 + 2 ^ 3 + 2 ^ 2 + 2 ^ 1 + 1) := by decide

theorem test_witness_SelcanonAnswersTheFirstIrreducibleCandidate : (1 ≤ 1 ∧ 1 ≤ 63) ∧ (1 ≤ 63 ∧ 63 ≤ 63) := by decide

theorem test_witness_FactorTableIsThePrimeFactors : (1 ≤ 1 ∧ 1 ≤ 63) ∧ (1 ≤ 63 ∧ 63 ≤ 63) := by decide

/-- The Table contexts of degree 1 and 2. -/
theorem test_witness_FindgenAnswersCtxGenInTableContext :
    (gf2.Inv ∧ gf2.ctxValid = true ∧ gf2.ctxStrat = .table) ∧ gf4.Inv ∧ gf4.ctxValid = true ∧ gf4.ctxStrat = .table :=
  ⟨⟨gf2_inv, rfl, rfl⟩, gf4_inv, rfl, rfl⟩

/-- Both strategies; degrees 1 and above; an operand that is no generator: 2 in `gf256`. -/
theorem test_witness_FindgenAnswersTheFirstGenerator :
    (gf2.Inv ∧ gf2.ctxValid = true ∧ gf2.m = 1) ∧ (gf4.Inv ∧ gf4.ctxValid = true ∧ 2 ≤ gf4.m)
      ∧ (gf256.Inv ∧ gf256.ctxValid = true ∧ gf256.ctxStrat = .direct ∧ 2 ≤ 2 ∧ 2 < 3) :=
  ⟨⟨gf2_inv, rfl, rfl⟩, ⟨gf4_inv, rfl, by decide⟩, gf256_inv, rfl, rfl, by decide, by decide⟩

theorem test_witness_RdalogAnswersThePower :
    gf4.Inv ∧ gf4.ctxValid = true ∧ gf4.ctxStrat = .table ∧ (2#64).toNat < gf4.order ∧ gf4.order ≤ (3#64).toNat :=
  ⟨gf4_inv, by decide⟩

theorem test_witness_RdlogAnswersTheExponent :
    gf4.Inv ∧ gf4.ctxValid = true ∧ gf4.ctxStrat = .table
      ∧ (1 ≤ (1#64).toNat ∧ (1#64).toNat < 2 ^ gf4.m) ∧ (1 ≤ (3#64).toNat ∧ (3#64).toNat < 2 ^ gf4.m)
      ∧ (0#64).toNat = 0 ∧ 2 ^ gf4.m ≤ (4#64).toNat := ⟨gf4_inv, by decide⟩

/-- `x^2 + x + 1` is the one candidate of degree 2. -/
theorem canonical_two : isCanonical 7 2 :=
  ⟨[], [], by decide, fun _ h => absurd h (List.not_mem_nil), by decide +kernel⟩

/-- The moduli `CREATE` builds on: supplied, none supplied, and fallback. -/
theorem test_witness_choosesModulus :
    choosesModulus 4 (some 0x13#64) false 0x13 ∧ choosesModulus 2 none false 7
      ∧ choosesModulus 2 (some 5#64) true 7 :=
  ⟨⟨by decide +kernel, .inl ⟨by decide +kernel, by decide⟩⟩, canonical_two,
    ⟨by decide +kernel, .inr ⟨by decide +kernel, rfl, canonical_two⟩⟩⟩

/-- `0x15` is reducible; the ceiling one below the degree. -/
theorem test_witness_CreateErrorsInOrder :
    (1 ≤ 4 ∧ 4 ≤ 63 ∧ deg (0x15#64).toNat = ((4 : Nat) : Int) ∧ isIrreducible (0x15#64).toNat 4 = false)
      ∧ (1 ≤ 2 ∧ 2 ≤ 63 ∧ choosesModulus 2 none false 7 ∧ (State.resetWith 1).tableCeiling.val < 2)
      ∧ choosesModulus 2 (some 5#64) true 7 ∧ choosesModulus 4 (some 0x13#64) false 0x13
      ∧ (State.resetWith 3).tableCeiling.val < 4 :=
  ⟨by decide +kernel, ⟨by decide, by decide, canonical_two, by decide⟩, test_witness_choosesModulus.2.2,
    test_witness_choosesModulus.1, by decide⟩

theorem test_witness_CreateDirectWritesTheDescriptor :
    1 ≤ 2 ∧ 2 ≤ 63 ∧ choosesModulus 2 none false 7 ∧ choosesModulus 2 (some 5#64) true 7
      ∧ (Hint.direct = .direct ∨ (Hint.direct = .auto ∧ State.reset.tableCeiling.val < 2))
      ∧ (Hint.auto = .direct ∨ (Hint.auto = .auto ∧ (State.resetWith 1).tableCeiling.val < 2)) :=
  ⟨by decide, by decide, canonical_two, test_witness_choosesModulus.2.2, by decide, by decide⟩

/-- The degree at the ceiling, requested and chosen by Auto. -/
theorem test_witness_CreateTableBuildsTheTables :
    1 ≤ 2 ∧ 2 ≤ 63 ∧ choosesModulus 2 none false 7 ∧ Hint.table ≠ .direct ∧ Hint.auto ≠ .direct
      ∧ 2 ≤ (State.resetWith 2).tableCeiling.val :=
  ⟨by decide, by decide, canonical_two, by decide, by decide, by decide⟩

/-- An error over a context, a Direct context over a Table context, and a smaller Table context. -/
theorem test_witness_CreateFrame :
    (∃ t, exec (.create 4 (some 0x15#64) .auto false) gf4 = .next t
        ∧ answers gf4 (.err .polynomialNotIrreducible) t = true)
      ∧ (∃ t, exec (.create 4 (some 0x13#64) .direct false) gf4 = .next t ∧ decide (t.ctxStrat = .direct) = true)
      ∧ ∃ t, exec (.create 1 (some 0b11#64) .auto false) gf4 = .next t ∧ decide (t.ctxStrat = .table) = true :=
  ⟨next_of_after (by decide +kernel), next_of_after (by decide +kernel), next_of_after (by decide +kernel)⟩

theorem test_witness_FaddIsXorInEveryContext :
    (gf4.ctxValid = true ∧ (3#64).toNat < 2 ^ gf4.m)
      ∧ (gf63.ctxValid = true ∧ (0x7FFFFFFFFFFFFFFF#64).toNat < 2 ^ gf63.m) := by decide +kernel

/-- The largest legal degree and its largest element. -/
theorem test_witness_FmulInDirectContext :
    gf63.ctxValid = true ∧ gf63.ctxStrat = .direct ∧ gf63.descriptorOk
      ∧ (0x7FFFFFFFFFFFFFFF#64).toNat < 2 ^ gf63.m ∧ (0#64).toNat < 2 ^ gf63.m := by decide +kernel

theorem test_witness_FmulInTableContextIsTheDirectProduct :
    gf4.Inv ∧ gf4.ctxValid = true ∧ gf4.ctxStrat = .table ∧ (3#64).toNat < 2 ^ gf4.m ∧ (0#64).toNat < 2 ^ gf4.m :=
  ⟨gf4_inv, by decide⟩

/-- Both strategies, the element 1 and the largest. -/
theorem test_witness_FinvAnswersTheInverse :
    (gf4.Inv ∧ gf4.ctxValid = true ∧ 1 ≤ (3#64).toNat ∧ (3#64).toNat < 2 ^ gf4.m)
      ∧ (gf256.Inv ∧ gf256.ctxValid = true ∧ 1 ≤ (1#64).toNat ∧ (0xFF#64).toNat < 2 ^ gf256.m) :=
  ⟨⟨gf4_inv, by decide⟩, gf256_inv, by decide⟩

theorem test_witness_FdivAnswersTheQuotient :
    (gf4.Inv ∧ gf4.ctxValid = true ∧ (0#64).toNat < 2 ^ gf4.m ∧ 1 ≤ (3#64).toNat ∧ (3#64).toNat < 2 ^ gf4.m)
      ∧ (gf256.Inv ∧ gf256.ctxValid = true ∧ 1 ≤ (1#64).toNat ∧ (0xFF#64).toNat < 2 ^ gf256.m) :=
  ⟨⟨gf4_inv, by decide⟩, gf256_inv, by decide⟩

theorem test_witness_FinvAndFdivInDirectContext :
    gf16.ctxValid = true ∧ gf16.ctxStrat = .direct ∧ (0#64).toNat < 2 ^ gf16.m ∧ 1 ≤ (0xF#64).toNat
      ∧ (0xF#64).toNat < 2 ^ gf16.m := by decide

theorem test_witness_FieldLawsHoldInEveryContext :
    (gf4.Inv ∧ gf4.ctxValid = true ∧ (3#64).toNat < 2 ^ gf4.m ∧ (3#64).toNat ≠ 0 ∧ (0#64).toNat = 0)
      ∧ gf16.Inv ∧ gf16.ctxValid = true ∧ (0xF#64).toNat < 2 ^ gf16.m :=
  ⟨⟨gf4_inv, by decide⟩, gf16_inv, by decide⟩

theorem test_witness_AccessorsAnswerFromTheContext :
    (gf63.ctxValid = true ∧ 1 ≤ gf63.m) ∧ State.reset.ctxValid = false := by decide

theorem test_witness_ContextCommandsNeedAContext : State.reset.ctxValid = false := by decide

/-- Each clause at the first value it takes. -/
theorem test_witness_ContextCommandErrorsInOrder :
    (gf16.ctxValid = true ∧ gf16.ctxStrat = .direct)
      ∧ (gf4.ctxValid = true ∧ gf4.ctxStrat = .table ∧ gf4.order ≤ (3#64).toNat)
      ∧ ((0#64).toNat = 0 ∧ 2 ^ gf4.m ≤ (4#64).toNat)
      ∧ ((3#64).toNat < 2 ^ gf4.m ∧ (0#64).toNat = 0) := by decide

theorem test_witness_CommandsAnswerOnlyTheirErrors :
    (∃ t, exec (.fdiv 1#64 0#64) gf4 = .next t ∧ answers gf4 (.err .divisionByZero) t = true)
      ∧ ∃ t, exec (.create 4 (some 0x13#64) .table false) (State.resetWith 3) = .next t
        ∧ answers (State.resetWith 3) (.err .capacityExceeded) t = true :=
  ⟨next_of_after (by decide +kernel), next_of_after (by decide +kernel)⟩

theorem test_witness_ErrorsWriteNothing :
    ∃ t, exec (.create 4 (some 0x15#64) .table false) gf4 = .next t
      ∧ answers gf4 (.err .polynomialNotIrreducible) t = true := next_of_after (by decide +kernel)

theorem test_witness_ResponsePacketsCarryStatusAndResult :
    (Response.err .illegalCommand).toPacket = (Response.err .illegalCommand).toPacket := rfl

theorem test_witness_OnlyPclmulNeedsTheHighWord :
    gf4.Inv ∧ (∃ t, exec (.rdlog 3#64) gf4 = .next t ∧ answers gf4 (.ok 2#128) t = true)
      ∧ ∀ a b, Instr.rdlog 3#64 ≠ .pclmul a b :=
  ⟨gf4_inv, next_of_after (by decide +kernel), fun _ _ h => Instr.noConfusion h⟩

theorem test_witness_OnlyCreateWritesArchitecturalState :
    isCreate (.fmul 2#64 3#64) = false
      ∧ ∃ t, exec (.fmul 2#64 3#64) gf4 = .next t ∧ answers gf4 (.ok 1#128) t = true :=
  ⟨by decide, next_of_after (by decide +kernel)⟩

/-- Two states with other ports and another count. -/
theorem test_witness_CommandsArePureInTheArchitecture :
    gf4.sameArchitecture { gf4 with cmdPort := [.reset], respPort := [.ok 1#128], resetCount := 3 }
      ∧ ∃ t, exec (.rdalog 2#64) gf4 = .next t ∧ answers gf4 (.ok 3#128) t = true :=
  ⟨by decide, next_of_after (by decide +kernel)⟩

theorem test_witness_ContextFreeCommandsAnswerAlikeInEveryState :
    isContextFree (.selcanon 8) = true ∧ isContextFree (.preduce 1#128 0#64 64) = true := by decide

/-- An asserted reset over a context; a `CREATE` over none. -/
theorem test_witness_ContextValidChangesOnlyByCreateAndReset :
    (∃ t, step (presented gf4 [.reset]) = .next t ∧ gf4.ctxValid = true ∧ t.ctxValid = false)
      ∧ decode ⟨0x50430#64, 0x13#64, 0#64, 0#64, 0#64⟩ = .ok (.create 4 (some 0x13#64) .direct false)
      ∧ isCreate (.create 4 (some 0x13#64) .direct false) = true
      ∧ (∃ t, exec (.create 4 (some 0x13#64) .direct false) .reset = .next t
          ∧ (answers .reset (.ok 0#128) t && t.ctxValid) = true)
      ∧ needsContext .deg = true ∧ State.reset.ctxValid = false :=
  ⟨⟨_, rfl, rfl, rfl⟩, by decide, by decide, next_of_after (by decide +kernel), by decide, by decide⟩

theorem test_witness_TableCeilingIsConstant : ∃ t, step (presented gf4 [.reset]) = .next t := ⟨_, rfl⟩

/-- Other entries outside the range in use, and another count; other contents where there is no context. -/
theorem test_witness_UnspecifiedValuesAreNeverSeen :
    (gf4.sameReadable gf4' ∧ gf4 ≠ gf4')
      ∧ ({ gf4 with ctxValid := false } : State).sameReadable State.reset
      ∧ gf4.cmdPort = gf4'.cmdPort ∧ gf4.respPort = gf4'.respPort
      ∧ ∃ t, step gf4 = .next t :=
  ⟨by decide +kernel, by decide +kernel, rfl, rfl, ⟨_, rfl⟩⟩

theorem test_witness_StepKeepsTheTablesCanonical :
    gf4.tablesCanonical ∧ ∃ t, step (presented gf4 [.reset]) = .next t := ⟨by decide, ⟨_, rfl⟩⟩

theorem test_witness_StepKeepsTheDescriptorValid :
    (gf4.ctxValid = true → gf4.descriptorOk ∧ (gf4.ctxStrat = .table → gf4.m ≤ gf4.tableCeiling.val))
      ∧ gf4.ctxValid = true ∧ ∃ t, step gf4 = .next t := ⟨by decide +kernel, rfl, ⟨_, rfl⟩⟩

/-- The three kinds of state: no context, a Direct context, a Table context. -/
theorem test_witness_StepKeepsTheInvariant :
    State.reset.Inv ∧ gf256.Inv ∧ gf4.Inv ∧ ∃ t, step (presented gf4 [.reset]) = .next t :=
  ⟨by decide, gf256_inv, gf4_inv, ⟨_, rfl⟩⟩

theorem test_witness_StepNeverStops :
    (presented gf4 [.packet ⟨0x41#64, 2#64, 3#64, 0#64, 0#64⟩]).Inv ∧ (presented gf2 [.reset]).Inv :=
  ⟨gf4_inv, gf2_inv⟩

end Sys2Proof.Tests
end

section
/-! PROOF. The life of CTX_VALID (10_state.md rule R24): which commands and which inputs write it, and what the
context commands answer while it is 0. -/

namespace Sys2Proof.Machine

/-! ### What one command can do -/

/-- Every command but CREATE delivers one response and changes nothing else (rules R13, R29). -/
theorem exec_next_of_not_isCreate {i : Instr} {s t : State} (hi : isCreate i = false) (h : exec i s = .next t) :
    ∃ r, t = s.respond r := by
  have hne : ∀ m modulus hint fb, i ≠ .create m modulus hint fb := by
    rintro m modulus hint fb rfl
    cases hi
  obtain ⟨c, hc⟩ := exec_eq_deliver i s hne
  exact deliver_next (hc ▸ h)

/-- CREATE answers an error and writes nothing, or it answers `Ok(0)` and leaves a context (rules R24, R170). -/
theorem exec_next_of_isCreate {i : Instr} {s t : State} (hi : isCreate i = true) (h : exec i s = .next t) :
    (∃ code, t = s.respond (.err code)) ∨ (t.ctxValid = true ∧ t.respPort = s.respPort ++ [.ok 0#128]) := by
  cases i with
  | create m modulus hint fb =>
    rcases execCreate_next h with ⟨code, _, rfl⟩ | ⟨f, _, rfl⟩ | ⟨f, g, _, _, rfl⟩
    · exact .inl ⟨code, rfl⟩
    · exact .inr ⟨rfl, rfl⟩
    · exact .inr ⟨rfl, by simp [zext128]⟩
  | _ => cases hi

/-- The one write of CTX_VALID by a command is CREATE's, to 1, with the answer `Ok(0)` (rule R24). -/
theorem exec_ctxValid_cases {i : Instr} {s t : State} (h : exec i s = .next t) :
    t.ctxValid = s.ctxValid
      ∨ (isCreate i = true ∧ t.ctxValid = true ∧ t.respPort = s.respPort ++ [.ok 0#128]) := by
  cases hi : isCreate i with
  | false =>
    obtain ⟨r, rfl⟩ := exec_next_of_not_isCreate hi h
    exact .inl rfl
  | true =>
    rcases exec_next_of_isCreate hi h with ⟨code, rfl⟩ | hok
    · exact .inl rfl
    · exact .inr ⟨rfl, hok⟩

/-- The first thing a context command does is to check that there is a context (rule R206). -/
theorem exec_eq_deliver_requireContext {i : Instr} (hi : needsContext i = true) (s : State) :
    ∃ k, exec i s = deliver s (requireContext s >>= k) := by
  cases i with
  | findgen | rdalog | rdlog | fadd | fmul | fdiv | finv | card | char | deg => exact ⟨_, rfl⟩
  | _ => cases hi

/-- Without a context every context command answers NoContext, whatever its operands (rules R24, R206). -/
theorem exec_noContext {i : Instr} {s : State} (hi : needsContext i = true) (hs : s.ctxValid = false) :
    exec i s = .next (s.respond (.err .noContext)) := by
  obtain ⟨k, hk⟩ := exec_eq_deliver_requireContext hi s
  rw [hk, requireContext_raise hs, raise_bind, deliver_raise]

/-! ### What one step can do -/

/-- With the packet of a legal command presented, the step is that command (rule R74). -/
theorem step_of_decode_ok {s : State} {p : Packet} {rest : List HostInput} {i : Instr}
    (hp : s.cmdPort = .packet p :: rest) (hd : decode p = .ok i) :
    step s = exec i { s with cmdPort := rest } := by
  simp [step, takeInput_cons hp, runPacket, hd]

/-- Across a step CTX_VALID is kept, or a reset clears it, or a CREATE answered `Ok(0)` sets it (rule R24). -/
theorem step_ctxValid_cases {s t : State} (h : step s = .next t) :
    t.ctxValid = s.ctxValid
      ∨ ((∃ rest, s.cmdPort = .reset :: rest) ∧ t.ctxValid = false)
      ∨ ((∃ p rest i, s.cmdPort = .packet p :: rest ∧ decode p = .ok i ∧ isCreate i = true
            ∧ t.respPort = s.respPort ++ [.ok 0#128]) ∧ t.ctxValid = true) := by
  rcases step_cases s with ⟨_, hs⟩ | ⟨rest, hp, hs⟩ | ⟨p, rest, e, _, _, hs⟩ | ⟨p, rest, i, hp, hd, hs⟩ <;>
    rw [hs] at h
  · cases h
    exact .inl rfl
  · cases h
    exact .inr (.inl ⟨⟨rest, hp⟩, rfl⟩)
  · cases h
    exact .inl rfl
  · rcases exec_ctxValid_cases h with hv | ⟨hi, hv, hr⟩
    · exact .inl hv
    · exact .inr (.inr ⟨⟨p, rest, i, hp, hd, hi, hr⟩, hv⟩)

/-- A CREATE answered Ok, with whatever result, leaves CTX_VALID 1 (rule R24). -/
theorem step_ctxValid_of_create_ok {s t : State} {p : Packet} {rest : List HostInput} {i : Instr} {r : Wide}
    (h : step s = .next t) (hp : s.cmdPort = .packet p :: rest) (hd : decode p = .ok i) (hi : isCreate i = true)
    (hr : t.respPort = s.respPort ++ [.ok r]) : t.ctxValid = true := by
  rw [step_of_decode_ok hp hd] at h
  rcases exec_next_of_isCreate hi h with ⟨code, rfl⟩ | ⟨hv, _⟩
  · simp at hr
  · exact hv

end Sys2Proof.Machine

namespace Sys2Proof.Proofs

open Sys2Proof Machine

/-- Settles O48, by what one step can do to CTX_VALID and what a context command does without a context. -/
theorem contextValidChangesOnlyByCreateAndReset : Obligations.ContextValidChangesOnlyByCreateAndReset := by
  refine ⟨fun _ => rfl, fun s t h => ⟨fun hs ht => ?cleared, fun hs ht => ?set, ?created⟩,
    fun i s hi hs => exec_noContext hi hs⟩
  case cleared =>
    rcases step_ctxValid_cases h with hk | ⟨hreset, _⟩ | ⟨_, hv⟩
    · simp [hk, hs] at ht
    · exact hreset
    · simp [hv] at ht
  case set =>
    rcases step_ctxValid_cases h with hk | ⟨_, hv⟩ | ⟨hcreate, _⟩
    · simp [hk, hs] at ht
    · simp [hv] at ht
    · exact hcreate
  case created => exact fun _ _ _ _ => step_ctxValid_of_create_ok h

end Sys2Proof.Proofs
end

section
/-! PROOF. Serialised packets (20_memory.md rule R47): the little-endian value of a packet's bytes is the packet's
value, and in a little-endian list of bytes, byte k is bits [8k+7 : 8k] of the list's value. -/

namespace Sys2Proof

/-! ### Little-endian lists of bytes -/

theorem bytesValue_append (xs ys : List Byte) :
    bytesValue (xs ++ ys) = bytesValue xs + 256 ^ xs.length * bytesValue ys := by
  induction xs with
  | nil => simp [bytesValue]
  | cons b xs ih =>
    simp only [List.cons_append, bytesValue, ih, List.length_cons]
    ring

/-- Byte k of a list is bits [8k+7 : 8k] of the list's little-endian value. -/
theorem getElem?_eq_bytesValue_shiftRight {bs : List Byte} {k : Nat} (hk : k < bs.length) :
    bs[k]? = some (BitVec.ofNat 8 (bytesValue bs >>> (8 * k))) := by
  induction bs generalizing k with
  | nil => cases hk
  | cons b bs ih =>
    cases k with
    | zero =>
      refine congrArg some (BitVec.eq_of_toNat_eq ?_)
      simp only [bytesValue, Nat.mul_zero, Nat.shiftRight_zero, BitVec.toNat_ofNat]
      omega
    | succ k =>
      have hdrop : bytesValue (b :: bs) >>> 8 = bytesValue bs := by
        simp only [bytesValue, Nat.shiftRight_eq_div_pow]
        omega
      rw [List.getElem?_cons_succ, ih (Nat.lt_of_succ_lt_succ hk), Nat.mul_succ, Nat.add_comm, Nat.shiftRight_add,
        hdrop]

/-! ### The bytes of a word -/

@[simp] theorem length_wordBytes (w : Word) : (wordBytes w).length = 8 := by
  simp [wordBytes]

/-- The first `n` bytes of a word are its value modulo `256 ^ n`. -/
theorem bytesValue_map_extractLsb' (w : Word) (n : Nat) :
    bytesValue ((List.range n).map fun k => w.extractLsb' (8 * k) 8) = w.toNat % 256 ^ n := by
  induction n with
  | zero => simp [bytesValue, Nat.mod_one]
  | succ n ih =>
    rw [List.range_succ, List.map_append, bytesValue_append, ih, Nat.mod_pow_succ]
    simp [bytesValue, Nat.shiftRight_eq_div_pow, Nat.pow_mul]

@[simp] theorem bytesValue_wordBytes (w : Word) : bytesValue (wordBytes w) = w.toNat := by
  have hw := w.isLt
  rw [wordBytes, bytesValue_map_extractLsb', Nat.mod_eq_of_lt (by omega)]

theorem bytesValue_wordBytes_append (w : Word) (bs : List Byte) :
    bytesValue (wordBytes w ++ bs) = w.toNat + 2 ^ 64 * bytesValue bs := by
  rw [bytesValue_append, bytesValue_wordBytes, length_wordBytes]
  norm_num

/-! ### A command packet -/

@[simp] theorem Packet.length_toBytes (p : Packet) : p.toBytes.length = 40 := by
  simp [Packet.toBytes]

/-- The 320-bit value word by word, the form in which a list of bytes gives it. -/
theorem Packet.toNat_eq (p : Packet) :
    p.toNat = p.w0.toNat + 2 ^ 64 * (p.w1.toNat + 2 ^ 64 * (p.w2.toNat + 2 ^ 64 * (p.w3.toNat
      + 2 ^ 64 * p.w4.toNat))) := by
  unfold Packet.toNat
  simp only [Nat.shiftLeft_eq]
  omega

@[simp] theorem Packet.bytesValue_toBytes (p : Packet) : bytesValue p.toBytes = p.toNat := by
  simp only [Packet.toBytes, List.append_assoc, bytesValue_wordBytes_append, bytesValue_wordBytes, p.toNat_eq]

/-- A packet's value gives its five words back. -/
@[simp] theorem Packet.ofNat_toNat (p : Packet) : Packet.ofNat p.toNat = p := by
  obtain ⟨w0, w1, w2, w3, w4⟩ := p
  simp only [Packet.ofNat, Packet.toNat_eq, Packet.mk.injEq, Nat.shiftRight_eq_div_pow]
  refine ⟨?_, ?_, ?_, ?_, ?_⟩ <;> (apply BitVec.eq_of_toNat_eq; rw [BitVec.toNat_ofNat]; omega)

theorem Packet.getElem?_toBytes (p : Packet) {k : Nat} (hk : k < 40) :
    p.toBytes[k]? = some (BitVec.ofNat 8 (p.toNat >>> (8 * k))) := by
  simpa using getElem?_eq_bytesValue_shiftRight (bs := p.toBytes) (by simpa using hk)

/-- The opcode byte is first. -/
theorem Packet.getElem?_zero_toBytes (p : Packet) : p.toBytes[0]? = some p.opc := rfl

end Sys2Proof

/-! ### A response packet -/

namespace Sys2Proof.Machine

@[simp] theorem ResponsePacket.length_toBytes (r : ResponsePacket) : r.toBytes.length = 24 := by
  simp [ResponsePacket.toBytes]

/-- The 192-bit value word by word, the form in which a list of bytes gives it. -/
theorem ResponsePacket.toNat_eq (r : ResponsePacket) :
    r.toNat = r.s0.toNat + 2 ^ 64 * (r.rLo.toNat + 2 ^ 64 * r.rHi.toNat) := by
  unfold ResponsePacket.toNat
  simp only [Nat.shiftLeft_eq]
  omega

@[simp] theorem ResponsePacket.bytesValue_toBytes (r : ResponsePacket) : bytesValue r.toBytes = r.toNat := by
  simp only [ResponsePacket.toBytes, List.append_assoc, bytesValue_wordBytes_append, bytesValue_wordBytes, r.toNat_eq]

theorem ResponsePacket.getElem?_toBytes (r : ResponsePacket) {k : Nat} (hk : k < 24) :
    r.toBytes[k]? = some (BitVec.ofNat 8 (r.toNat >>> (8 * k))) := by
  simpa using getElem?_eq_bytesValue_shiftRight (bs := r.toBytes) (by simpa using hk)

end Sys2Proof.Machine

namespace Sys2Proof.Proofs

open Sys2Proof Machine

/-- Settles O6: the bytes' little-endian value is the packet's value, from which each byte is read. -/
theorem serialisedPacketsAreLittleEndian : Obligations.SerialisedPacketsAreLittleEndian := by
  refine ⟨fun p => ⟨p.length_toBytes, fun _ => p.getElem?_toBytes, p.getElem?_zero_toBytes, ?givesBack⟩,
    fun r => ⟨r.length_toBytes, fun _ => r.getElem?_toBytes⟩⟩
  case givesBack => rw [p.bytesValue_toBytes, p.ofNat_toNat]

end Sys2Proof.Proofs
end

section
/-! PROOF. Which packets are commands (30_encoding.md rules R68, R69, R74): a row of the opcode table selects a header
exactly when the header's fields are the row's, so decode refuses exactly the packets of rule R68; what a refused
packet and an illegal degree are answered; and which words decode reads. -/

namespace Sys2Proof

/-! ### A header is its fields -/

/-- The seven fields of rule R62 cover the header. -/
theorem header_ext_iff {h g : Word} :
    h = g ↔ h.extractLsb' 0 8 = g.extractLsb' 0 8 ∧ h.extractLsb' 8 7 = g.extractLsb' 8 7
      ∧ h.extractLsb' 15 1 = g.extractLsb' 15 1 ∧ h.extractLsb' 16 2 = g.extractLsb' 16 2
      ∧ h.extractLsb' 18 1 = g.extractLsb' 18 1 ∧ h.extractLsb' 19 1 = g.extractLsb' 19 1
      ∧ h.extractLsb' 20 44 = g.extractLsb' 20 44 := by
  constructor
  · rintro rfl
    exact ⟨rfl, rfl, rfl, rfl, rfl, rfl, rfl⟩
  · simp only [← BitVec.toNat_inj, BitVec.extractLsb'_toNat, Nat.shiftRight_eq_div_pow]
    omega

/-- A field under a mask that is all zeros where `c` holds and all ones where it does not. -/
theorem and_fieldMask_eq_zero_iff {w : Nat} (x : BitVec w) (c : Prop) [Decidable c] :
    (x &&& if c then 0#w else BitVec.allOnes w) = 0#w ↔ (¬c → x = 0#w) := by
  by_cases hc : c <;> simp [hc]

/-! ### The columns mask and match, field by field (rule R66) -/

namespace Op
variable (o : Op)

theorem mask_opc : o.mask.extractLsb' 0 8 = BitVec.allOnes 8 := by cases o <;> rfl

theorem mask_mdeg : o.mask.extractLsb' 8 7 = if o.usesDegree = true then 0#7 else BitVec.allOnes 7 := by
  cases o <;> rfl

theorem mask_reserved15 : o.mask.extractLsb' 15 1 = BitVec.allOnes 1 := by cases o <;> rfl

theorem mask_strat : o.mask.extractLsb' 16 2 = if o = .create then 0#2 else BitVec.allOnes 2 := by cases o <;> rfl

theorem mask_hasmod : o.mask.extractLsb' 18 1 = if o = .create then 0#1 else BitVec.allOnes 1 := by cases o <;> rfl

theorem mask_fb : o.mask.extractLsb' 19 1 = if o = .create then 0#1 else BitVec.allOnes 1 := by cases o <;> rfl

theorem mask_reservedHigh : o.mask.extractLsb' 20 44 = BitVec.allOnes 44 := by cases o <;> rfl

theorem pattern_fields :
    o.pattern.extractLsb' 0 8 = o.opcode ∧ o.pattern.extractLsb' 8 7 = 0#7 ∧ o.pattern.extractLsb' 15 1 = 0#1
      ∧ o.pattern.extractLsb' 16 2 = 0#2 ∧ o.pattern.extractLsb' 18 1 = 0#1 ∧ o.pattern.extractLsb' 19 1 = 0#1
      ∧ o.pattern.extractLsb' 20 44 = 0#44 := by
  cases o <;> decide

theorem selects_eq_true_iff {h : Word} : o.selects h = true ↔ h &&& o.mask = o.pattern := beq_iff_eq

theorem mem_all : o ∈ Op.all := by cases o <;> decide

theorem opcode_injective {a b : Op} (h : a.opcode = b.opcode) : a = b :=
  have distinct : ∀ a ∈ Op.all, ∀ b ∈ Op.all, a.opcode = b.opcode → a = b := by decide
  distinct a a.mem_all b b.mem_all h

/-- A row selects a header exactly when `OPC` is the row's and every bit that is no field of the row is 0. -/
theorem selects_iff (p : Packet) :
    o.selects p.w0 = true ↔
      p.opc = o.opcode ∧ (p.reserved15 = 0#1 ∧ p.reservedHigh = 0#44) ∧ (o.usesDegree = false → p.mdeg = 0#7)
        ∧ (o ≠ .create → p.strat = 0#2 ∧ p.hasmod = 0#1 ∧ p.fb = 0#1) := by
  obtain ⟨hopc, hmdeg, h15, hstrat, hhasmod, hfb, hhigh⟩ := o.pattern_fields
  rw [selects_eq_true_iff, header_ext_iff]
  simp only [BitVec.extractLsb'_and, mask_opc, mask_mdeg, mask_reserved15, mask_strat, mask_hasmod, mask_fb,
    mask_reservedHigh, hopc, hmdeg, h15, hstrat, hhasmod, hfb, hhigh, BitVec.and_allOnes, and_fieldMask_eq_zero_iff,
    Bool.not_eq_true]
  rw [Packet.opc, Packet.mdeg, Packet.reserved15, Packet.strat, Packet.hasmod, Packet.fb, Packet.reservedHigh]
  tauto

end Op

/-! ### The row of a packet -/

theorem opc_of_selects {p : Packet} {o : Op} (h : o.selects p.w0 = true) : p.opc = o.opcode :=
  ((o.selects_iff p).mp h).1

theorem findRow_eq_none_iff {h : Word} : findRow h = none ↔ ∀ o : Op, o.selects h ≠ true := by
  simp [findRow, List.find?_eq_none, Op.mem_all]

/-- At most one row can match (rule R74): the one that does is found. -/
theorem findRow_eq_some_iff {p : Packet} {o : Op} : findRow p.w0 = some o ↔ o.selects p.w0 = true := by
  refine ⟨List.find?_some, fun ho => ?_⟩
  cases hrow : findRow p.w0 with
  | none => exact absurd ho (findRow_eq_none_iff.mp hrow o)
  | some o' =>
    have ho' : p.opc = o'.opcode := opc_of_selects (List.find?_some hrow)
    rw [Op.opcode_injective (ho'.symm.trans (opc_of_selects ho))]

/-! ### Which packets decode refuses (rule R68) -/

theorem Hint.ofBits_eq_none_iff (b : BitVec 2) : Hint.ofBits b = none ↔ b = 3#2 := by
  revert b
  decide

theorem readCreate_error_iff {p : Packet} : (∃ e, readCreate p = .error e) ↔ p.strat = 3#2 := by
  rw [← Hint.ofBits_eq_none_iff, readCreate]
  cases Hint.ofBits p.strat <;> simp

/-- `CREATE` is the one row whose packets are not all commands. -/
theorem Op.read_error_iff {p : Packet} {o : Op} :
    (∃ e, o.read p = .error e) ↔ o = .create ∧ p.strat = 3#2 := by
  cases o with
  | create => simp [Op.read, readCreate_error_iff]
  | _ => simp [Op.read]

/-- Rule R74: illegal are the packets no row matches, and `CREATE` with `STRAT = 3`. -/
theorem decode_error_iff_selects {p : Packet} :
    (∃ e, decode p = .error e) ↔
      (∀ o : Op, o.selects p.w0 ≠ true) ∨ (Op.create.selects p.w0 = true ∧ p.strat = 3#2) := by
  rw [← findRow_eq_none_iff, ← findRow_eq_some_iff, decode]
  cases findRow p.w0 with
  | none => simp
  | some o => simp [Op.read_error_iff]

/-- Rule R68 (a) to (e). -/
theorem decode_error_iff_fields {p : Packet} :
    (∃ e, decode p = .error e) ↔
      (∀ o : Op, p.opc ≠ o.opcode)
        ∨ (p.reserved15 ≠ 0#1 ∨ p.reservedHigh ≠ 0#44)
        ∨ (∃ o : Op, p.opc = o.opcode ∧ o.usesDegree = false ∧ p.mdeg ≠ 0#7)
        ∨ (∃ o : Op, p.opc = o.opcode ∧ o ≠ .create ∧ (p.strat ≠ 0#2 ∨ p.hasmod ≠ 0#1 ∨ p.fb ≠ 0#1))
        ∨ (p.opc = Op.create.opcode ∧ p.strat = 3#2) := by
  rw [decode_error_iff_selects]
  by_cases hopc : ∃ o : Op, p.opc = o.opcode
  · obtain ⟨o, ho⟩ := hopc
    have eq_row : ∀ o' : Op, p.opc = o'.opcode ↔ o' = o := fun o' =>
      ⟨fun h => Op.opcode_injective (h.symm.trans ho), fun h => h ▸ ho⟩
    simp only [ne_eq, Op.selects_iff, eq_row, not_and, forall_eq, exists_eq_left]
    by_cases hc : Op.create = o
    · subst hc
      tauto
    · tauto
  · push Not at hopc
    exact iff_of_true (.inl fun o h => hopc o (opc_of_selects h)) (.inl hopc)

/-! ### What a packet decodes to -/

theorem readCreate_ok {p : Packet} {i : Instr} (h : readCreate p = .ok i) :
    ∃ modulus hint fb, i = .create p.degree modulus hint fb := by
  rw [readCreate] at h
  cases hh : Hint.ofBits p.strat <;> simp only [hh] at h <;> cases h
  exact ⟨_, _, _, rfl⟩

theorem decode_ok {p : Packet} {i : Instr} (h : decode p = .ok i) : ∃ o : Op, o.read p = .ok i := by
  rw [decode] at h
  cases hrow : findRow p.w0 <;> simp only [hrow] at h
  · cases h
  · exact ⟨_, h⟩

/-! ### The words decode reads (rule R69) -/

/-- `CREATE` reads the header, and word A where `HASMOD = 1`. -/
theorem readCreate_congr {p q : Packet} (h0 : p.w0 = q.w0) (hA : p.hasmod = 1#1 → p.w1 = q.w1) :
    readCreate p = readCreate q := by
  have hmodulus : (if p.hasmod = 1#1 then some p.w1 else none) = if q.hasmod = 1#1 then some q.w1 else none := by
    have hhasmod : p.hasmod = q.hasmod := congrArg (·.extractLsb' 18 1) h0
    rw [← hhasmod]
    split
    · next h => rw [hA h]
    · rfl
  simp only [readCreate, hmodulus, Packet.strat, Packet.degree, Packet.mdeg, Packet.fb, h0]

/-- A row reads the header, and the words it uses. -/
theorem Op.read_congr {p q : Packet} {o : Op} (h0 : p.w0 = q.w0)
    (hA : Machine.usesA p.hasmod o = true → p.w1 = q.w1) (hB : Machine.usesB o = true → p.w2 = q.w2)
    (hC : Machine.usesC o = true → p.w3 = q.w3) : o.read p = o.read q := by
  have hdegree : p.degree = q.degree := congrArg (fun h : Word => (h.extractLsb' 8 7).toNat) h0
  cases o with
  | padd | pclmul | fadd | fmul | fdiv => simp only [Op.read, hA rfl, hB rfl]
  | preduce | pmodmul | pmodexp => simp only [Op.read, Packet.wide, hA rfl, hB rfl, hC rfl, hdegree]
  | isirred | rdalog | rdlog | finv => simp only [Op.read, hA rfl, hdegree]
  | selcanon => simp only [Op.read, hdegree]
  | create => exact readCreate_congr h0 fun h => hA (beq_iff_eq.mpr h)
  | findgen | card | char | deg => rfl

theorem illegalReason_congr {p q : Packet} (h0 : p.w0 = q.w0) : illegalReason p = illegalReason q := by
  obtain ⟨w0, _, _, _, _⟩ := p
  obtain ⟨_, _, _, _, _⟩ := q
  cases h0
  rfl

end Sys2Proof

namespace Sys2Proof.Machine

theorem step_of_decode_error {s : State} {p : Packet} {rest : List HostInput} {e : DecodeError}
    (hp : s.cmdPort = .packet p :: rest) (hd : decode p = .error e) :
    step s = .next (State.respond { s with cmdPort := rest } (.err .illegalCommand)) := by
  simp [step, takeInput_cons hp, runPacket, hd]

theorem deliver_checkDegree_raise {m : Nat} (hm : m = 0 ∨ 63 < m) (s : State) (k : Unit → Cmd Wide) :
    deliver s (checkDegree m >>= k) = .next (s.respond (.err .degreeOutOfRange)) := by
  rw [checkDegree_raise hm, raise_bind, deliver_raise]

theorem execCreate_degreeOutOfRange {m : Nat} (hm : m = 0 ∨ 63 < m) (modulus : Option Word) (hint : Hint) (fb : Bool)
    (s : State) : execCreate m modulus hint fb s = .next (s.respond (.err .degreeOutOfRange)) := by
  rw [execCreate_eq, createChecks, checkDegree_raise hm, raise_bind, raise_bind, conclude_raise]

/-- The first check of every command that uses `MDEG` is of its degree, whatever its words hold (rule R68). -/
theorem exec_degreeOutOfRange {p : Packet} {o : Op} {i : Instr} (hr : o.read p = .ok i)
    (hu : i.op.usesDegree = true) (hm : p.degree = 0 ∨ 63 < p.degree) (s : State) :
    exec i s = .next (s.respond (.err .degreeOutOfRange)) := by
  cases o with
  | preduce | pmodmul | pmodexp | isirred | selcanon =>
    cases hr
    exact deliver_checkDegree_raise hm s _
  | create =>
    obtain ⟨modulus, hint, fb, rfl⟩ := readCreate_ok hr
    exact execCreate_degreeOutOfRange hm modulus hint fb s
  | _ =>
    cases hr
    cases hu

end Sys2Proof.Machine

namespace Sys2Proof.Proofs

open Sys2Proof Machine

/-- Settles O3: a row selects a header exactly when its fields are the row's, and the degree is what a command that
uses `MDEG` checks first. -/
theorem illegalPacketsAreAnsweredIllegalCommand : Obligations.IllegalPacketsAreAnsweredIllegalCommand := by
  refine ⟨fun p => ⟨decode_error_iff_fields, ?bySelection⟩, ?answer, ?degree, fun _ _ _ => rfl⟩
  case bySelection => simpa only [ne_eq, Op.selects_eq_true_iff] using decode_error_iff_selects (p := p)
  case answer =>
    rintro s p rest hp ⟨e, he⟩
    exact step_of_decode_error hp he
  case degree =>
    intro p i s hd hu hm
    obtain ⟨o, hr⟩ := decode_ok hd
    exact exec_degreeOutOfRange hr hu hm s

/-- Settles O4: with one header two packets have one row, and a row reads only the words it uses. -/
theorem unusedWordsAreIgnored : Obligations.UnusedWordsAreIgnored := by
  intro p q h0 hwords
  rw [decode, decode, ← h0]
  cases hrow : findRow p.w0 with
  | none => exact congrArg Except.error (illegalReason_congr h0)
  | some o =>
    obtain ⟨hA, hB, hC⟩ := hwords o hrow
    exact Op.read_congr h0 hA hB hC

end Sys2Proof.Proofs
end

section
/-! PROOF. The carry-less product (40_ring.md rule R102), by its image in GF(2)[x]: its bits are the coefficients of
a product of polynomials, and its laws are those of that ring. -/

namespace Sys2Proof.Machine

/-! ### The bits of the product -/

theorem testBit_iff_coeff_toPoly {n i : Nat} : n.testBit i = true ↔ (toPoly n).coeff i = 1 := by
  rw [coeff_toPoly]
  cases n.testBit i <;> simp

/-- The convolution formula for a coefficient of a product, over GF(2). -/
theorem coeff_toPoly_clmul (a b k : Nat) :
    (toPoly (clmul a b)).coeff k
      = ((List.range (k + 1)).countP (fun i => a.testBit i && b.testBit (k - i)) : ZMod 2) := by
  have hterm (i : Nat) : (toPoly a).coeff i * (toPoly b).coeff (k - i)
      = if (a.testBit i && b.testBit (k - i)) = true then 1 else 0 := by
    rw [coeff_toPoly, coeff_toPoly]
    cases a.testBit i <;> simp
  rw [toPoly_clmul, Polynomial.coeff_mul,
    Finset.Nat.sum_antidiagonal_eq_sum_range_succ (fun i j => (toPoly a).coeff i * (toPoly b).coeff j),
    Finset.sum_congr rfl fun i _ => hterm i, Finset.sum_boole, ← Nat.count_eq_card_filter_range, Nat.count]
  simp only [Bool.decide_eq_true]

/-- Bit k is the parity of the pairs i + j = k whose two bits are set (rule R102). -/
theorem testBit_clmul (a b k : Nat) :
    (clmul a b).testBit k
      = decide ((List.range (k + 1)).countP (fun i => a.testBit i && b.testBit (k - i)) % 2 = 1) := by
  rw [Bool.eq_iff_iff, testBit_iff_coeff_toPoly, coeff_toPoly_clmul, ZMod.natCast_eq_one_iff_odd, Nat.odd_iff,
    decide_eq_true_iff]

/-! ### The laws of the product -/

theorem clmul_comm (a b : Nat) : clmul a b = clmul b a :=
  toPoly_injective (by rw [toPoly_clmul, toPoly_clmul, mul_comm])

theorem clmul_assoc (a b c : Nat) : clmul (clmul a b) c = clmul a (clmul b c) :=
  toPoly_injective (by simp only [toPoly_clmul, mul_assoc])

theorem clmul_xor (a b c : Nat) : clmul a (b ^^^ c) = clmul a b ^^^ clmul a c :=
  toPoly_injective (by simp only [toPoly_clmul, toPoly_xor, mul_add])

@[simp] theorem clmul_one (a : Nat) : clmul a 1 = a :=
  toPoly_injective (by rw [toPoly_clmul, toPoly_one, mul_one])

@[simp] theorem clmul_zero (a : Nat) : clmul a 0 = 0 :=
  toPoly_injective (by rw [toPoly_clmul, toPoly_zero, mul_zero])

/-! ### The degree of the product -/

theorem clmul_ne_zero {a b : Nat} (ha : a ≠ 0) (hb : b ≠ 0) : clmul a b ≠ 0 := by
  rw [Ne, ← toPoly_eq_zero, toPoly_clmul]
  exact mul_ne_zero (toPoly_eq_zero.not.mpr ha) (toPoly_eq_zero.not.mpr hb)

/-- GF(2)[x] has no zero divisors, so degrees add. -/
theorem deg_clmul {a b : Nat} (ha : a ≠ 0) (hb : b ≠ 0) : deg (clmul a b) = deg a + deg b := by
  have hlog : Nat.log2 (clmul a b) = Nat.log2 a + Nat.log2 b := by
    rw [← natDegree_toPoly (clmul_ne_zero ha hb), toPoly_clmul,
      Polynomial.natDegree_mul (toPoly_eq_zero.not.mpr ha) (toPoly_eq_zero.not.mpr hb), natDegree_toPoly ha,
      natDegree_toPoly hb]
  rw [deg_of_ne_zero (clmul_ne_zero ha hb), deg_of_ne_zero ha, deg_of_ne_zero hb, hlog, Nat.cast_add]

/-- Operands of at most m + 1 and n + 1 bits have a product of at most m + n + 1 bits: the degrees add. -/
theorem clmul_lt {a b m n : Nat} (ha : a < 2 ^ (m + 1)) (hb : b < 2 ^ (n + 1)) : clmul a b < 2 ^ (m + n + 1) := by
  by_cases h0 : a = 0 ∨ b = 0
  · rcases h0 with rfl | rfl
    · simp [clmul_comm 0 b]
    · simp
  · obtain ⟨ha0, hb0⟩ := not_or.mp h0
    rw [← deg_lt_iff] at ha hb ⊢
    rw [deg_clmul ha0 hb0]
    omega

end Sys2Proof.Machine

namespace Sys2Proof.Proofs

open Sys2Proof Machine

/-- Settles O12: each law is the law of GF(2)[x] that `toPoly` carries it to. -/
theorem carrylessProductLaws : Obligations.CarrylessProductLaws :=
  ⟨testBit_clmul, clmul_comm, clmul_assoc, clmul_xor, clmul_one, clmul_zero, fun _ _ => deg_clmul,
    fun a b => clmul_lt (m := 63) (n := 63) a.isLt b.isLt⟩

end Sys2Proof.Proofs
end

section
/-! PROOF. Reduction and modular multiplication (40_ring.md rules R104, R106): a value below 2^m is fixed by its residue
modulo f, so each law of `reduce` and `modMultiply` is an equation in the quotient ring GF(2)[x]/(f). -/

namespace Sys2Proof.Machine

/-! ### The remainder (rule R104) -/

@[simp] theorem residue_self (f : Nat) : residue f f = 0 := AdjoinRoot.mk_self

/-- The remainder is unique: it has the residue of w. -/
theorem eq_reduce {f m w q r : Nat} (hf : deg f = (m : Int)) (hr : r < 2 ^ m) (h : w = clmul q f ^^^ r) :
    r = reduce w f m :=
  eq_of_residue_eq hf hr (reduce_lt hf w) (by rw [residue_reduce hf]; simp [h])

/-- `PolyDivMod` (00_scope.md rule R11) on the numbers themselves. -/
theorem eq_clmul_xor_polyDivMod (a : Nat) {b : Nat} (hb : b ≠ 0) :
    a = clmul (polyDivMod a b).1 b ^^^ (polyDivMod a b).2 :=
  toPoly_injective (by rw [toPoly_xor, toPoly_clmul, ← (polyDivMod_spec a hb).2])

theorem reduce_eq_polyDivMod_snd {f m : Nat} (hf : deg f = (m : Int)) (w : Nat) :
    reduce w f m = (polyDivMod w f).2 := by
  obtain ⟨hf0, rfl⟩ := deg_eq_iff.mp hf
  exact (eq_reduce hf (polyDivMod_snd_lt w hf0) (eq_clmul_xor_polyDivMod w hf0)).symm

/-- w and its reduction differ by a carry-less multiple of f. -/
theorem exists_eq_clmul_xor_reduce {f m : Nat} (hf : deg f = (m : Int)) (w : Nat) :
    ∃ q, w = clmul q f ^^^ reduce w f m := by
  rw [reduce_eq_polyDivMod_snd hf]
  exact ⟨_, eq_clmul_xor_polyDivMod w (deg_eq_iff.mp hf).1⟩

/-- The loop has ended after deg(w) − m + 1 steps: more steps give the same value. -/
theorem reduceLoop_eq_reduce {f m w steps : Nat} (hf : deg f = (m : Int)) (h : deg w - m + 1 ≤ (steps : Int)) :
    reduceLoop f m steps w = reduce w f m := by
  have hw : w < 2 ^ (m + steps) := deg_lt_iff.mp (by push_cast; omega)
  obtain ⟨hlt, q, hq⟩ := reduceLoop_spec hf steps w hw
  refine eq_of_residue_eq hf hlt (reduce_lt hf w) ?_
  rw [residue_reduce hf, residue_eq_iff]
  exact ⟨-q, by rw [hq]; ring⟩

theorem reduce_xor {f m : Nat} (hf : deg f = (m : Int)) (u v : Nat) :
    reduce (u ^^^ v) f m = reduce u f m ^^^ reduce v f m :=
  eq_of_residue_eq hf (reduce_lt hf _) (Nat.xor_lt_two_pow (reduce_lt hf u) (reduce_lt hf v))
    (by simp [residue_reduce hf])

/-! ### The product in GF(2)[x]/(f) (rule R106) -/

/-- Only the operands' residues matter. -/
theorem modMultiply_congr {f m a b c d : Nat} (hf : deg f = (m : Int))
    (h : residue f a * residue f b = residue f c * residue f d) : modMultiply a b f m = modMultiply c d f m :=
  eq_of_residue_eq hf (modMultiply_lt hf a b) (modMultiply_lt hf c d)
    (by rw [residue_modMultiply hf, residue_modMultiply hf, h])

theorem modMultiply_reduce {f m : Nat} (hf : deg f = (m : Int)) (a b : Nat) :
    modMultiply a b f m = modMultiply (reduce a f m) (reduce b f m) f m :=
  modMultiply_congr hf (by rw [residue_reduce hf, residue_reduce hf])

theorem modMultiply_comm (a b f m : Nat) : modMultiply a b f m = modMultiply b a f m := by
  rw [modMultiply, clmul_comm, modMultiply]

theorem modMultiply_assoc {f m : Nat} (hf : deg f = (m : Int)) (a b c : Nat) :
    modMultiply (modMultiply a b f m) c f m = modMultiply a (modMultiply b c f m) f m :=
  modMultiply_congr hf (by rw [residue_modMultiply hf, residue_modMultiply hf, mul_assoc])

theorem modMultiply_xor {f m : Nat} (hf : deg f = (m : Int)) (a b c : Nat) :
    modMultiply a (b ^^^ c) f m = modMultiply a b f m ^^^ modMultiply a c f m := by
  rw [modMultiply, clmul_xor, reduce_xor hf, modMultiply, modMultiply]

theorem modMultiply_one (a f m : Nat) : modMultiply a 1 f m = reduce a f m := by
  rw [modMultiply, clmul_one]

end Sys2Proof.Machine

namespace Sys2Proof.Proofs

open Sys2Proof Machine

/-- Settles O13: `Reduce` is the remainder of `PolyDivMod`, which a value below 2^m with the residue of w must be. -/
theorem reduceIsTheRemainder : Obligations.ReduceIsTheRemainder := fun _ _ hf =>
  ⟨fun w => ⟨reduce_lt hf w, exists_eq_clmul_xor_reduce hf w, fun _ _ => eq_reduce hf,
      reduce_eq_polyDivMod_snd hf w, fun _ => reduceLoop_eq_reduce hf⟩,
    fun _ => reduce_of_lt hf, reduce_xor hf⟩

/-- Settles O15: the laws of `clmul`, and of the product of residues. -/
theorem modMultiplyLaws : Obligations.ModMultiplyLaws := fun f m hf =>
  ⟨fun _ _ => rfl, modMultiply_reduce hf, fun a b => modMultiply_comm a b f m, modMultiply_assoc hf,
    modMultiply_xor hf, fun a => modMultiply_one a f m⟩

end Sys2Proof.Proofs
end

section
/-! PROOF. The two checks of the commands that take a degree (40_ring.md rules R110, R111), and the one command that
needs none, PADD (rule R101). -/

namespace Sys2Proof.Machine

/-! ### The top-bit check (rule R111) -/

theorem deg_zero_ne (m : Nat) : deg 0 ≠ (m : Int) := fun h => (deg_eq_iff.mp h).1 rfl

/-- A bit above m puts the degree above m. -/
theorem deg_ne_of_testBit {p m j : Nat} (hj : m < j) (hp : p.testBit j = true) : deg p ≠ (m : Int) := by
  intro h
  obtain ⟨-, rfl⟩ := deg_eq_iff.mp h
  simp [testBit_false_of_log2_lt hj] at hp

/-- After a legal degree, the top-bit check is the next thing that can fail. -/
theorem deliver_checkTop_raise {m p : Nat} (h1 : 1 ≤ m) (h2 : m ≤ 63) (hp : deg p ≠ (m : Int)) (s : State)
    (k : Unit → Cmd Wide) :
    deliver s (checkDegree m >>= fun _ => checkTop p m >>= k)
      = .next (s.respond (.err .polynomialDegreeMismatch)) := by
  rw [checkDegree_ok h1 h2, ok_bind, checkTop_raise hp, raise_bind, deliver_raise]

theorem execCreate_polynomialDegreeMismatch {m : Nat} {p : Word} (h1 : 1 ≤ m) (h2 : m ≤ 63)
    (hp : deg p.toNat ≠ (m : Int)) (hint : Hint) (fb : Bool) (s : State) :
    execCreate m (some p) hint fb s = .next (s.respond (.err .polynomialDegreeMismatch)) := by
  rw [execCreate_eq, createChecks, checkDegree_ok h1 h2, ok_bind, chooseModulus, checkTop_raise hp]
  simp only [raise_bind, conclude_raise]

end Sys2Proof.Machine

namespace Sys2Proof

/-! ### The packets of a command -/

/-- A row reads its own command. -/
theorem Op.op_of_read {p : Packet} {o : Op} {i : Instr} (h : o.read p = .ok i) : i.op = o := by
  cases o with
  | create =>
    obtain ⟨modulus, hint, fb, rfl⟩ := readCreate_ok h
    rfl
  | _ =>
    cases h
    rfl

/-- A packet is a command exactly when the command's row selects its header and reads the command (rule R74). -/
theorem decode_ok_iff {p : Packet} {i : Instr} :
    decode p = .ok i ↔ i.op.selects p.w0 = true ∧ i.op.read p = .ok i := by
  constructor
  · intro h
    rw [decode] at h
    cases hrow : findRow p.w0 <;> simp only [hrow] at h
    · cases h
    · rw [Op.op_of_read h]
      exact ⟨findRow_eq_some_iff.mp hrow, h⟩
  · rintro ⟨hs, hr⟩
    rw [decode, findRow_eq_some_iff.mpr hs]
    exact hr

end Sys2Proof

namespace Sys2Proof.Machine

/-! ### PADD (rule R101) -/

/-- The row of PADD has no field, so it selects one header. -/
theorem decode_eq_padd_iff {p : Packet} {a b : Word} :
    decode p = .ok (.padd a b) ↔ p.w0 = 0x10#64 ∧ p.w1 = a ∧ p.w2 = b := by
  have hmask : p.w0 &&& Op.padd.mask = p.w0 := BitVec.and_allOnes
  simp [decode_ok_iff, Instr.op, Op.selects_eq_true_iff, hmask, Op.pattern, Op.read]

/-- The xor of two words, zero-extended, is the xor of their numbers. -/
theorem zext128_polyAdd_toNat (a b : Word) : zext128 (polyAdd a.toNat b.toNat) = (a ^^^ b).setWidth 128 := by
  rw [zext128, polyAdd, ← BitVec.toNat_xor, BitVec.ofNat_toNat]

end Sys2Proof.Machine

namespace Sys2Proof.Proofs

open Sys2Proof Machine

/-- Settles O18: each of the commands begins with the degree check, and all but SELCANON and CREATE without a modulus
go on with the top-bit check. -/
theorem degreeAndTopBitChecks : Obligations.DegreeAndTopBitChecks := by
  refine ⟨fun wide a b p m s => ⟨fun hm => ?degree, fun h1 h2 hp => ?top⟩,
    fun modulus hint fb m s hm => execCreate_degreeOutOfRange hm modulus hint fb s,
    fun p hint fb m s h1 h2 hp => execCreate_polynomialDegreeMismatch h1 h2 hp hint fb s, deg_zero_ne,
    fun p m j => deg_ne_of_testBit⟩
  case degree =>
    simp only [List.forall_mem_cons]
    have raises := deliver_checkDegree_raise hm s
    exact ⟨raises _, raises _, raises _, raises _, raises _, List.forall_mem_nil _⟩
  case top =>
    simp only [List.forall_mem_cons]
    have raises := deliver_checkTop_raise h1 h2 hp s
    exact ⟨raises _, raises _, raises _, raises _, List.forall_mem_nil _⟩

/-- Settles O10: the one header PADD's row selects, and the xor of words as numbers. -/
theorem paddIsXor : Obligations.PaddIsXor := by
  refine ⟨fun _ _ _ => decode_eq_padd_iff, fun a b s => ?_⟩
  rw [← zext128_polyAdd_toNat]
  rfl

end Sys2Proof.Proofs
end

section
/-! PROOF. The candidate sequence of the checker (41_checker.md rule R122). -/

namespace Sys2Proof.Machine

/-- A bit above a value whose bits lie below it: the sum stays below every higher power. -/
theorem two_pow_add_lt {n b a : Nat} (hn : n < 2 ^ b) (hb : b < a) : 2 ^ b + n < 2 ^ a := by
  have := Nat.pow_le_pow_right Nat.two_pos hb
  omega

/-- Rule R122 (b), (c): past degree 1 every candidate has three or five terms. -/
theorem candidates_of_two_le {m : Nat} (hm : 2 ≤ m) : candidates m = trinomials m ++ pentanomials m :=
  if_neg (by omega)

theorem pairwise_lt_trinomials (m : Nat) : (trinomials m).Pairwise (· < ·) :=
  List.pairwise_map.mpr <| (List.pairwise_lt_range' (s := 1)).imp fun hkl =>
    Nat.succ_lt_succ (Nat.add_lt_add_left (Nat.pow_lt_pow_right Nat.one_lt_two hkl) _)

/-- An index of one of the loops of `trinomials` and `pentanomials`, all of which run from 1 to below a bound. -/
theorem mem_range'_one {k n : Nat} : k ∈ List.range' 1 (n - 1) ↔ 1 ≤ k ∧ k < n := by
  rw [List.mem_range'_1]
  omega

theorem mem_pentanomials {m f : Nat} :
    f ∈ pentanomials m ↔ ∃ a b c, a < m ∧ b < a ∧ c < b ∧ 1 ≤ c ∧ f = 2 ^ m + 2 ^ a + 2 ^ b + 2 ^ c + 1 := by
  simp only [pentanomials, List.mem_flatMap, List.mem_map, mem_range'_one]
  constructor
  · rintro ⟨a, ⟨-, ha⟩, b, ⟨-, hb⟩, c, ⟨hc1, hc⟩, rfl⟩
    exact ⟨a, b, c, ha, hb, hc, hc1, rfl⟩
  · rintro ⟨a, b, c, ha, hb, hc, hc1, rfl⟩
    exact ⟨a, ⟨by omega, ha⟩, b, ⟨by omega, hb⟩, c, ⟨hc1, hc⟩, rfl⟩

/-- The order by a, then b, then c is the order of the values (rule R122 (c)): below the first exponent that differs,
what is left cannot make up for one bit. -/
theorem pentanomial_lt (m : Nat) {a b c a' b' c' : Nat} (hb : b < a) (hc : c < b)
    (h : a < a' ∨ a = a' ∧ (b < b' ∨ b = b' ∧ c < c')) :
    2 ^ m + 2 ^ a + 2 ^ b + 2 ^ c + 1 < 2 ^ m + 2 ^ a' + 2 ^ b' + 2 ^ c' + 1 := by
  have hcb : 2 ^ c < 2 ^ b := Nat.pow_lt_pow_right Nat.one_lt_two hc
  have := Nat.two_pow_pos b'
  have := Nat.two_pow_pos c'
  rcases h with ha | ⟨rfl, hb' | ⟨rfl, hc'⟩⟩
  · have : 2 ^ a + (2 ^ b + 2 ^ c) < 2 ^ a' := two_pow_add_lt (two_pow_add_lt hcb hb) ha
    omega
  · have : 2 ^ b + 2 ^ c < 2 ^ b' := two_pow_add_lt hcb hb'
    omega
  · have : 2 ^ c < 2 ^ c' := Nat.pow_lt_pow_right Nat.one_lt_two hc'
    omega

theorem pairwise_lt_pentanomials (m : Nat) : (pentanomials m).Pairwise (· < ·) := by
  have rising {n : Nat} : (List.range' 1 n).Pairwise (· < ·) := List.pairwise_lt_range'
  simp only [pentanomials, List.pairwise_flatMap, List.pairwise_map, List.mem_flatMap, List.mem_map, mem_range'_one]
  refine ⟨fun a _ => ⟨fun b ⟨_, hb⟩ => ?byC, ?byB⟩, ?byA⟩
  case byC =>
    refine rising.imp_of_mem fun hc _ hlt => ?_
    exact pentanomial_lt m hb (mem_range'_one.mp hc).2 (.inr ⟨rfl, .inr ⟨rfl, hlt⟩⟩)
  case byB =>
    refine rising.imp_of_mem fun hb _ hlt => ?_
    rintro _ ⟨c, ⟨-, hc⟩, rfl⟩ _ ⟨c', -, rfl⟩
    exact pentanomial_lt m (mem_range'_one.mp hb).2 hc (.inr ⟨rfl, .inl hlt⟩)
  case byA =>
    refine rising.imp fun hlt => ?_
    rintro _ ⟨b, ⟨-, hb⟩, c, ⟨-, hc⟩, rfl⟩ _ ⟨b', -, c', -, rfl⟩
    exact pentanomial_lt m hb hc (.inl hlt)

theorem pentanomials_of_lt_four {m : Nat} (hm : m < 4) : pentanomials m = [] := by
  refine List.eq_nil_iff_forall_not_mem.mpr fun f hf => ?_
  obtain ⟨a, b, c, ha, hb, hc, hc1, -⟩ := mem_pentanomials.mp hf
  omega

end Sys2Proof.Machine

namespace Sys2Proof.Proofs

open Sys2Proof Machine

/-- Settles O20: the trinomials and the pentanomials of the model are the two parts. -/
theorem candidatesInCanonicalOrder : Obligations.CandidatesInCanonicalOrder :=
  ⟨rfl, fun m hm => ⟨trinomials m, pentanomials m, candidates_of_two_le hm, rfl, fun _ => mem_pentanomials,
    pairwise_lt_trinomials m, pairwise_lt_pentanomials m, pentanomials_of_lt_four⟩⟩

end Sys2Proof.Proofs
end

section
/-! PROOF. The accessors CARD, CHAR and DEG (43_context.md rules R180, R181, R182). -/

namespace Sys2Proof

/-- A row without fields that reads no word selects one header, and that header is its command (rules R66, R74). -/
theorem decode_eq_iff_of_plainRow {p : Packet} {i : Instr} (hmask : i.op.mask = BitVec.allOnes 64)
    (hread : i.op.read p = .ok i) : decode p = .ok i ↔ p.w0 = i.op.pattern := by
  rw [decode_ok_iff, Op.selects_eq_true_iff, hmask, BitVec.and_allOnes]
  exact and_iff_left hread

end Sys2Proof

namespace Sys2Proof.Machine

/-- With a context, a command that checks for nothing else answers its result (rule R13). -/
theorem deliver_requireContext_pure {s : State} (hs : s.ctxValid = true) (r : Wide) :
    deliver s (requireContext s >>= fun _ => pure r) = .next (s.respond (.ok r)) := by
  rw [requireContext_ok hs, ok_bind, deliver_pure]

/-- CTX_M has 6 bits (rule R25). -/
theorem State.m_lt (s : State) : s.m < 64 := s.ctxM.isLt

theorem zext128_two_pow (n : Nat) : zext128 (2 ^ n) = BitVec.twoPow 128 n := by
  apply BitVec.eq_of_toNat_eq
  rw [zext128, BitVec.toNat_ofNat, BitVec.toNat_twoPow]

theorem zext128_m (s : State) : zext128 s.m = s.ctxM.setWidth 128 := BitVec.ofNat_toNat ..

/-- 2^CTX_M fits the result (rule R180). -/
theorem State.toNat_twoPow_m (s : State) : (BitVec.twoPow 128 s.m).toNat = 2 ^ s.m :=
  BitVec.toNat_twoPow_of_lt (s.m_lt.trans (by decide))

theorem exec_card {s : State} (hs : s.ctxValid = true) :
    exec .card s = .next (s.respond (.ok (BitVec.twoPow 128 s.m))) := by
  rw [← zext128_two_pow]
  exact deliver_requireContext_pure hs _

theorem exec_char {s : State} (hs : s.ctxValid = true) : exec .char s = .next (s.respond (.ok 2#128)) :=
  deliver_requireContext_pure hs (zext128 Config.characteristic)

theorem exec_deg {s : State} (hs : s.ctxValid = true) :
    exec .deg s = .next (s.respond (.ok (s.ctxM.setWidth 128))) := by
  rw [← zext128_m]
  exact deliver_requireContext_pure hs _

end Sys2Proof.Machine

namespace Sys2Proof.Proofs

open Sys2Proof Machine

/-- Settles O38: the rows of the accessors have no field, their one check is the context's, and CTX_M is below 64. -/
theorem accessorsAnswerFromTheContext : Obligations.AccessorsAnswerFromTheContext := by
  refine ⟨fun p => ?headers, fun s hs => ⟨exec_card hs, exec_char hs, exec_deg hs, fun hm => ?cardBounds⟩,
    fun s hs i hi => exec_noContext ?needsContext hs⟩
  case headers =>
    exact ⟨decode_eq_iff_of_plainRow rfl rfl, decode_eq_iff_of_plainRow rfl rfl, decode_eq_iff_of_plainRow rfl rfl⟩
  case cardBounds =>
    rw [s.toNat_twoPow_m]
    exact ⟨Nat.pow_le_pow_right Nat.two_pos hm, Nat.pow_le_pow_right Nat.two_pos (Nat.le_of_lt_succ s.m_lt)⟩
  case needsContext =>
    have accessors : ∀ j ∈ [Instr.card, .char, .deg], needsContext j = true := by decide
    exact accessors i hi

end Sys2Proof.Proofs
end

section
/-! PROOF. What an error leaves behind (60_exceptions.md rule R203), and the first check of the context commands
(rule R206). -/

namespace Sys2Proof.Machine

/-- The context commands, in any form of their operands, have NoContext in their rows of rule R201. -/
theorem needsContext_of_mem {a b : Word} {i : Instr}
    (hi : i ∈ [Instr.findgen, .rdalog a, .rdlog a, .fadd a b, .fmul a b, .fdiv a b, .finv a, .card, .char, .deg]) :
    needsContext i = true :=
  List.all_eq_true.mp rfl i hi

/-- The response that a state has just had delivered can be read off its port. -/
theorem respond_respPort_eq_append_iff {s : State} {r r' : Response} :
    (s.respond r).respPort = s.respPort ++ [r'] ↔ r = r' := by simp

/-- A command that answers an error has only delivered that response. Every command but CREATE delivers one response and
does nothing else; CREATE writes only when it answers `Ok(0)` (rule R203). -/
theorem exec_next_of_err {i : Instr} {s t : State} {code : ErrorCode} (h : exec i s = .next t)
    (hcode : t.respPort = s.respPort ++ [.err code]) : t = s.respond (.err code) := by
  cases hi : isCreate i with
  | false =>
    obtain ⟨r, rfl⟩ := exec_next_of_not_isCreate hi h
    rw [respond_respPort_eq_append_iff.mp hcode]
  | true =>
    rcases exec_next_of_isCreate hi h with ⟨code', rfl⟩ | ⟨_, hok⟩
    · rw [respond_respPort_eq_append_iff.mp hcode]
    · simp [hok] at hcode

/-- The packet of an error: its code in STATUS, and R = 0 (rules R64, R203). -/
theorem toPacket_err (code : ErrorCode) : (Response.err code).toPacket = ⟨code.code.setWidth 64, 0#64, 0#64⟩ := by
  simp [Response.toPacket, Response.status, Response.result]

end Sys2Proof.Machine

namespace Sys2Proof.Proofs

open Sys2Proof Machine

/-- Settles O42: an error's response is all that its command leaves, and its packet carries the code alone. -/
theorem errorsWriteNothing : Obligations.ErrorsWriteNothing :=
  ⟨fun _ _ _ _ => exec_next_of_err, toPacket_err⟩

/-- Settles O39: each of the ten commands begins with the check of the context. -/
theorem contextCommandsNeedAContext : Obligations.ContextCommandsNeedAContext := fun _ _ _ hs _ hi =>
  exec_noContext (needsContext_of_mem hi) hs

end Sys2Proof.Proofs
end

section
/-! PROOF. The encoder and the decoder (30_encoding.md rules R60 to R67, R74, R75): a row reads off an encoded header
the fields that were put in, a command has one header, and the bytes of a packet decode to what its words do. -/

namespace Sys2Proof

/-! ### The fields of an encoded header -/

theorem mdeg_degreeHeader (o : Op) (m : Nat) : (degreeHeader o m).extractLsb' 8 7 = BitVec.ofNat 7 m := by
  ext i hi
  have h64 : i < 64 ∧ 8 + i < 64 := by omega
  simp [degreeHeader, hi, h64]

section CreateHeader
variable (m : Nat) (hasmod : Bool) (hint : Hint) (fb : Bool)

theorem mdeg_createHeader : (createHeader m hasmod hint fb).extractLsb' 8 7 = BitVec.ofNat 7 m := by
  ext i hi
  have hlt : i < 64 ∧ 8 + i < 64 ∧ 8 + i < 16 ∧ 8 + i < 18 ∧ 8 + i < 19 := by omega
  simp [createHeader, degreeHeader, hi, hlt]

theorem strat_createHeader : (createHeader m hasmod hint fb).extractLsb' 16 2 = hint.toBits := by
  ext i hi
  interval_cases i <;> simp [createHeader, degreeHeader, ← BitVec.getLsbD_eq_getElem, BitVec.getLsbD_of_ge]

theorem hasmod_createHeader : (createHeader m hasmod hint fb).extractLsb' 18 1 = BitVec.ofBool hasmod := by
  ext i hi
  interval_cases i
  simp [createHeader, degreeHeader, ← BitVec.getLsbD_eq_getElem, BitVec.getLsbD_of_ge]

theorem fb_createHeader : (createHeader m hasmod hint fb).extractLsb' 19 1 = BitVec.ofBool fb := by
  ext i hi
  interval_cases i
  simp [createHeader, degreeHeader, ← BitVec.getLsbD_eq_getElem, BitVec.getLsbD_of_ge]

end CreateHeader

/-- The header of every well-formed command selects the command's own row (rule R66). -/
theorem selects_encode {i : Instr} (hi : i.wellFormed = true) : i.op.selects (encode i).w0 = true := by
  have hrow : Laws.EncodedRow.Statement i := by
    cases i with
    | padd a b => exact Laws.EncodedRow.padd a b
    | pclmul a b => exact Laws.EncodedRow.pclmul a b
    | preduce wide modulus m => exact Laws.EncodedRow.preduce wide modulus m
    | pmodmul a b modulus m => exact Laws.EncodedRow.pmodmul a b modulus m
    | pmodexp base exponent modulus m => exact Laws.EncodedRow.pmodexp base exponent modulus m
    | isirred poly m => exact Laws.EncodedRow.isirred poly m
    | selcanon m => exact Laws.EncodedRow.selcanon m
    | create m modulus hint fb => exact Laws.EncodedRow.create m modulus hint fb
    | findgen => exact Laws.EncodedRow.findgen
    | rdalog i => exact Laws.EncodedRow.rdalog i
    | rdlog a => exact Laws.EncodedRow.rdlog a
    | fadd a b => exact Laws.EncodedRow.fadd a b
    | fmul a b => exact Laws.EncodedRow.fmul a b
    | fdiv a b => exact Laws.EncodedRow.fdiv a b
    | finv a => exact Laws.EncodedRow.finv a
    | card => exact Laws.EncodedRow.card
    | char => exact Laws.EncodedRow.char
    | deg => exact Laws.EncodedRow.deg
  exact findRow_eq_some_iff.mp (hrow hi)

/-! ### What a row reads -/

theorem Hint.ofBits_eq_some_iff {b : BitVec 2} {hint : Hint} : Hint.ofBits b = some hint ↔ b = hint.toBits := by
  cases hint <;> revert b <;> decide

/-- `CREATE`'s command is its four fields and word A (rules R67, R69). -/
theorem readCreate_eq_ok_iff {p : Packet} {m : Nat} {modulus : Option Word} {hint : Hint} {fb : Bool} :
    readCreate p = .ok (.create m modulus hint fb) ↔
      p.degree = m ∧ p.strat = hint.toBits ∧ (if p.hasmod = 1#1 then some p.w1 else none) = modulus
        ∧ (p.fb == 1#1) = fb := by
  rw [← Hint.ofBits_eq_some_iff, readCreate]
  cases Hint.ofBits p.strat <;> simp
  tauto

theorem degreeEncodable_iff {m : Nat} : degreeEncodable m = true ↔ m < 128 := decide_eq_true_iff

theorem Packet.degree_lt (p : Packet) : p.degree < 128 := p.mdeg.isLt

theorem Packet.degree_of_mdeg {p : Packet} {m : Nat} (h : p.mdeg = BitVec.ofNat 7 m) (hm : degreeEncodable m = true) :
    p.degree = m := by
  rw [Packet.degree, h, BitVec.toNat_ofNat, Nat.mod_eq_of_lt (degreeEncodable_iff.mp hm)]

theorem readCreate_encode {m : Nat} (hm : degreeEncodable m = true) (modulus : Option Word) (hint : Hint) (fb : Bool) :
    readCreate (encode (.create m modulus hint fb)) = .ok (.create m modulus hint fb) := by
  have hhasmod : (encode (.create m modulus hint fb)).hasmod = BitVec.ofBool modulus.isSome := hasmod_createHeader ..
  have hfb : (encode (.create m modulus hint fb)).fb = BitVec.ofBool fb := fb_createHeader ..
  refine readCreate_eq_ok_iff.mpr ⟨Packet.degree_of_mdeg (mdeg_createHeader ..) hm, strat_createHeader .., ?_, ?_⟩
  · rw [hhasmod]
    cases modulus <;> rfl
  · rw [hfb]
    cases fb <;> rfl

/-- A 128-bit value is its two words. -/
theorem wide_eq_append_words (v : Wide) : v.extractLsb' 64 64 ++ v.extractLsb' 0 64 = v :=
  (BitVec.extractLsb'_append_extractLsb'_eq_extractLsb' (start₁ := 0) rfl).trans BitVec.extractLsb'_eq_self

/-- A command's own row reads it off its encoding (rules R63, R67). -/
theorem read_encode {i : Instr} (hi : i.wellFormed = true) : i.op.read (encode i) = .ok i := by
  have hdegree (o : Op) {m : Nat} (hm : degreeEncodable m = true) (w1 w2 w3 w4 : Word) :
      Packet.degree ⟨degreeHeader o m, w1, w2, w3, w4⟩ = m := Packet.degree_of_mdeg (mdeg_degreeHeader o m) hm
  cases i with
  | preduce wide modulus m =>
    simp [Instr.op, Op.read, encode, Packet.wide, hdegree .preduce hi, wide_eq_append_words]
  | pmodmul a b modulus m => simp [Instr.op, Op.read, encode, hdegree .pmodmul hi]
  | pmodexp base exponent modulus m => simp [Instr.op, Op.read, encode, hdegree .pmodexp hi]
  | isirred poly m => simp [Instr.op, Op.read, encode, hdegree .isirred hi]
  | selcanon m => simp [Instr.op, Op.read, encode, hdegree .selcanon hi]
  | create m modulus hint fb => exact readCreate_encode hi modulus hint fb
  | _ => rfl

theorem decode_encode {i : Instr} (hi : i.wellFormed = true) : decode (encode i) = .ok i :=
  decode_ok_iff.mpr ⟨selects_encode hi, read_encode hi⟩

/-! ### What decodes -/

theorem wellFormed_of_read {p : Packet} {o : Op} {i : Instr} (h : o.read p = .ok i) : i.wellFormed = true := by
  have hdegree : degreeEncodable p.degree = true := degreeEncodable_iff.mpr p.degree_lt
  cases o with
  | create =>
    obtain ⟨modulus, hint, fb, rfl⟩ := readCreate_ok h
    exact hdegree
  | preduce | pmodmul | pmodexp | isirred | selcanon =>
    cases h
    exact hdegree
  | _ =>
    cases h
    rfl

/-- Packets that `CREATE`'s row reads as one command agree on all four fields (rule R67). -/
theorem readCreate_fields {p q : Packet} {i : Instr} (hp : readCreate p = .ok i) (hq : readCreate q = .ok i) :
    p.mdeg = q.mdeg ∧ p.strat = q.strat ∧ p.hasmod = q.hasmod ∧ p.fb = q.fb := by
  have bit_eq {x y : BitVec 1} : (x = 1#1 ↔ y = 1#1) → x = y := by revert x y; decide
  obtain ⟨modulus, hint, fb, rfl⟩ := readCreate_ok hp
  obtain ⟨-, hstrat, hmodulus, hfb⟩ := readCreate_eq_ok_iff.mp hp
  obtain ⟨hdegree', hstrat', hmodulus', hfb'⟩ := readCreate_eq_ok_iff.mp hq
  refine ⟨(BitVec.eq_of_toNat_eq hdegree').symm, hstrat.trans hstrat'.symm, bit_eq ?_, bit_eq ?_⟩
  · have hsome := congrArg (Option.isSome · = true) (hmodulus.trans hmodulus'.symm)
    simpa [Option.isSome_ite] using hsome
  · rw [← beq_iff_eq, ← beq_iff_eq (a := q.fb), hfb, hfb']

theorem mdeg_eq_of_read {p q : Packet} {o : Op} {i : Instr} (ho : o.usesDegree = true) (hp : o.read p = .ok i)
    (hq : o.read q = .ok i) : p.mdeg = q.mdeg := by
  apply BitVec.eq_of_toNat_eq
  show p.degree = q.degree
  cases o with
  | create => exact congrArg BitVec.toNat (readCreate_fields hp hq).1
  | preduce | pmodmul | pmodexp | isirred | selcanon =>
    simp only [Op.read, Except.ok.injEq] at hp hq
    rw [← hp] at hq
    simp only [Instr.preduce.injEq, Instr.pmodmul.injEq, Instr.pmodexp.injEq, Instr.isirred.injEq,
      Instr.selcanon.injEq] at hq
    tauto
  | _ => cases ho

/-- No header bit of a legal packet is dropped: a command has one header (rules R62, R67). -/
theorem header_eq_of_decode {p q : Packet} {i : Instr} (hp : decode p = .ok i) (hq : decode q = .ok i) :
    p.w0 = q.w0 := by
  obtain ⟨hps, hpr⟩ := decode_ok_iff.mp hp
  obtain ⟨hqs, hqr⟩ := decode_ok_iff.mp hq
  obtain ⟨hopc, ⟨h15, hhigh⟩, hmdeg, hcreate⟩ := (Op.selects_iff _ p).mp hps
  obtain ⟨hopc', ⟨h15', hhigh'⟩, hmdeg', hcreate'⟩ := (Op.selects_iff _ q).mp hqs
  have hm : p.mdeg = q.mdeg := by
    cases hu : i.op.usesDegree with
    | true => exact mdeg_eq_of_read hu hpr hqr
    | false => rw [hmdeg hu, hmdeg' hu]
  have hc : p.strat = q.strat ∧ p.hasmod = q.hasmod ∧ p.fb = q.fb := by
    by_cases ho : i.op = .create
    · rw [ho] at hpr hqr
      exact (readCreate_fields hpr hqr).2
    · obtain ⟨hstrat, hhasmod, hfb⟩ := hcreate ho
      obtain ⟨hstrat', hhasmod', hfb'⟩ := hcreate' ho
      exact ⟨hstrat.trans hstrat'.symm, hhasmod.trans hhasmod'.symm, hfb.trans hfb'.symm⟩
  exact header_ext_iff.mpr ⟨hopc.trans hopc'.symm, hm, h15.trans h15'.symm, hc.1, hc.2.1, hc.2.2,
    hhigh.trans hhigh'.symm⟩

/-! ### Bytes -/

/-- A stream that starts with a packet's 40 bytes decodes to what the packet decodes to, and leaves the rest. -/
theorem decodeBytes_toBytes_append (p : Packet) (rest : List Byte) :
    decodeBytes (p.toBytes ++ rest) = (decode p).map (·, rest) := by
  have hlen : ¬ (p.toBytes ++ rest).length < 40 := by simp
  rw [decodeBytes, if_neg hlen, List.take_left' p.length_toBytes, List.drop_left' p.length_toBytes,
    p.bytesValue_toBytes, p.ofNat_toNat]
  cases decode p <;> rfl

/-- A table word is decoded as the packet it is laid out as. -/
theorem decode_of_decodeTableWord {nbits w : Nat} {i : Instr} (h : decodeTableWord nbits w = some i) :
    decode (Packet.ofTableWord nbits w) = .ok i := by
  have hbytes := decodeBytes_toBytes_append (Packet.ofTableWord nbits w) []
  rw [List.append_nil] at hbytes
  unfold decodeTableWord at h
  split at h
  · cases h
  · rw [hbytes] at h
    cases hd : decode (Packet.ofTableWord nbits w) <;> simp_all [Except.map]

end Sys2Proof

namespace Sys2Proof.Proofs

open Sys2Proof Machine

/-- Settles O1: a command's row selects its encoded header and reads the command back, from bytes as from words. -/
theorem decodeOfEncodeIsTheCommand : Obligations.DecodeOfEncodeIsTheCommand := by
  refine fun i hi => ⟨decode_encode hi, fun rest => ?_⟩
  rw [decodeBytes_toBytes_append, decode_encode hi]
  rfl

/-- Settles O2: what a row reads is well-formed, so its encoding decodes to it, and a command has one header. -/
theorem decodedCommandKeepsItsHeader : Obligations.DecodedCommandKeepsItsHeader := by
  intro p i hp
  have hi : i.wellFormed = true := wellFormed_of_read (decode_ok_iff.mp hp).2
  exact ⟨hi, header_eq_of_decode (decode_encode hi) hp, decode_encode hi⟩

/-- Settles O5, by evaluation of the assembler and the decoder on the lines of rule R75. -/
theorem workedEncodingsAssembleAndDecode : Obligations.WorkedEncodingsAssembleAndDecode := by
  unfold Obligations.WorkedEncodingsAssembleAndDecode
  decide

/-- Settles O7: a table word is presented as the packet of its bits. -/
theorem stepExecutesTheDecodedCommand : Obligations.StepExecutesTheDecodedCommand :=
  ⟨fun _ _ _ _ => step_of_decode_ok, fun s _ _ _ h =>
    step_of_decode_ok (s := present _ s) rfl (decode_of_decodeTableWord h)⟩

end Sys2Proof.Proofs
end

section
/-! PROOF. What a command and a step leave unchanged (00_scope.md rule R13, 10_state.md rules R29, R35), what reset
leaves (70_reset_and_hazards.md rule R230), and the response packet (30_encoding.md rule R64). -/

namespace Sys2Proof.Machine

/-! ### One command, one response -/

/-- Every command that answers delivers one response, and leaves the host's inputs, the ceiling and the count of
resets (rules R35, R46). -/
theorem exec_next_frame {i : Instr} {s t : State} (h : exec i s = .next t) :
    t.cmdPort = s.cmdPort ∧ t.tableCeiling = s.tableCeiling ∧ t.resetCount = s.resetCount
      ∧ ∃ r, t.respPort = s.respPort ++ [r] := by
  cases hi : isCreate i with
  | false =>
    obtain ⟨r, rfl⟩ := exec_next_of_not_isCreate hi h
    exact ⟨rfl, rfl, rfl, r, rfl⟩
  | true =>
    cases i with
    | create m modulus hint fb =>
      rcases execCreate_next h with ⟨code, _, rfl⟩ | ⟨f, _, rfl⟩ | ⟨f, g, _, _, rfl⟩ <;> simp
    | _ => cases hi

/-- What a step keeps: whatever is kept when an input is taken off the port, when a response is delivered, by an
asserted reset and by CREATE, since no other command writes the state (rules R13, R29). -/
theorem step_preserves {P : State → Prop} (hport : ∀ s rest, P s → P { s with cmdPort := rest })
    (hrespond : ∀ s r, P s → P (s.respond r)) (hreset : ∀ s, P s → P s.assertReset)
    (hcreate : ∀ m modulus hint fb s t, P s → exec (.create m modulus hint fb) s = .next t → P t)
    {s t : State} (hs : P s) (h : step s = .next t) : P t := by
  rcases step_cases s with ⟨_, hk⟩ | ⟨rest, _, hk⟩ | ⟨p, rest, e, _, _, hk⟩ | ⟨p, rest, i, _, _, hk⟩ <;> rw [hk] at h
  · cases h
    exact hs
  · cases h
    exact hreset _ (hport s rest hs)
  · cases h
    exact hrespond _ _ (hport s rest hs)
  · cases hi : isCreate i with
    | false =>
      obtain ⟨r, rfl⟩ := exec_next_of_not_isCreate hi h
      exact hrespond _ _ (hport s rest hs)
    | true =>
      cases i with
      | create m modulus hint fb => exact hcreate m modulus hint fb _ t (hport s rest hs) h
      | _ => cases hi

/-- Both memories stay canonical under CREATE, which writes them entry by entry. -/
theorem create_tablesCanonical {m : Nat} {modulus : Option Word} {hint : Hint} {fb : Bool} {s t : State}
    (hs : s.tablesCanonical) (h : exec (.create m modulus hint fb) s = .next t) : t.tablesCanonical := by
  rcases execCreate_next h with ⟨code, _, rfl⟩ | ⟨f, _, rfl⟩ | ⟨f, g, _, _, rfl⟩
  · exact hs
  · exact hs
  · exact buildFrom_tablesCanonical f m g _ _ _ hs

/-! ### One input -/

theorem step_of_nil {s : State} (hp : s.cmdPort = []) : step s = .next s := by simp [step, takeInput_nil hp]

theorem step_of_reset {s : State} {rest : List HostInput} (hp : s.cmdPort = .reset :: rest) :
    step s = .next (State.assertReset { s with cmdPort := rest }) := by simp [step, takeInput_cons hp]

/-- A packet, legal or not, is taken and answered once (rules R45, R46). -/
theorem step_of_packet {s t : State} {p : Packet} {rest : List HostInput} (hp : s.cmdPort = .packet p :: rest)
    (h : step s = .next t) : t.cmdPort = rest ∧ ∃ r, t.respPort = s.respPort ++ [r] := by
  cases hd : decode p with
  | error e =>
    rw [step_of_decode_error hp hd] at h
    cases h
    exact ⟨rfl, _, rfl⟩
  | ok i =>
    rw [step_of_decode_ok hp hd] at h
    obtain ⟨hport, -, -, hresp⟩ := exec_next_frame h
    exact ⟨hport, hresp⟩

/-! ### The response packet -/

theorem code_ne_zero (code : ErrorCode) : code.code ≠ 0#8 := by cases code <;> decide

/-- Every error has its own code (rule R200). -/
theorem code_injective {c d : ErrorCode} (h : c.code = d.code) : c = d := by
  revert h
  cases c <;> cases d <;> decide

@[simp] theorem toPacket_status (r : Response) : r.toPacket.s0.extractLsb' 0 8 = r.status := by
  ext i hi
  have hlt : i < 64 := by omega
  simp [Response.toPacket, hlt, BitVec.getLsbD_eq_getElem hi]

@[simp] theorem toPacket_result (r : Response) : r.toPacket.rHi ++ r.toPacket.rLo = r.result :=
  wide_eq_append_words r.result

theorem toPacket_zero_bits (r : Response) : r.toPacket.s0.extractLsb' 8 56 = 0#56 := by
  ext i hi
  simp [Response.toPacket]

theorem status_eq_zero_iff {r : Response} : r.status = 0#8 ↔ ∃ v, r = .ok v := by
  cases r with
  | ok v => exact iff_of_true rfl ⟨v, rfl⟩
  | err code => simpa [Response.status] using code_ne_zero code

/-- STATUS and R tell all responses apart (rules R64, R200). -/
theorem eq_of_status_result {r r' : Response} (hstatus : r.status = r'.status) (hresult : r.result = r'.result) :
    r = r' := by
  cases r with
  | ok v =>
    obtain ⟨v', rfl⟩ := status_eq_zero_iff.mp (hstatus.symm.trans rfl)
    exact congrArg Response.ok hresult
  | err code =>
    cases r' with
    | ok v' => exact absurd hstatus (code_ne_zero code)
    | err code' => exact congrArg Response.err (code_injective hstatus)

end Sys2Proof.Machine

namespace Sys2Proof.Proofs

open Sys2Proof Machine

/-- Settles O45: all but CREATE end in `deliver`. -/
theorem onlyCreateWritesArchitecturalState : Obligations.OnlyCreateWritesArchitecturalState :=
  fun _ _ _ => exec_next_of_not_isCreate

/-- Settles O49: no command writes the ceiling, nor does reset. -/
theorem tableCeilingIsConstant : Obligations.TableCeilingIsConstant := by
  intro s t h
  refine step_preserves (P := fun u => u.tableCeiling = s.tableCeiling) (fun _ _ hu => hu) (fun _ _ hu => hu)
    (fun _ hu => hu) ?create rfl h
  case create =>
    intro m modulus hint fb u v hu hv
    obtain ⟨-, hceiling, -⟩ := exec_next_frame hv
    exact hceiling.trans hu

/-- Settles O52: each write of an entry keeps the canonical form, and reset's free contents have it (log 4). -/
theorem stepKeepsTheTablesCanonical : Obligations.StepKeepsTheTablesCanonical := fun _ _ =>
  step_preserves (P := State.tablesCanonical) (fun _ _ hs => hs) (fun _ _ hs => hs)
    (fun _ _ => ⟨wf_ofList _, wf_ofList _⟩) (fun _ _ _ _ _ _ => create_tablesCanonical)

/-- Settles O51: reset leaves empty memories and no context. -/
theorem invariantHoldsAfterReset : Obligations.InvariantHoldsAfterReset := fun _ => ⟨⟨rfl, rfl⟩, nofun, nofun⟩

/-- Settles O8, by the three forms of the command port. -/
theorem eachPacketGetsOneResponse : Obligations.EachPacketGetsOneResponse := by
  refine fun s t h => ⟨fun hp => ?idle, fun rest hp => ?reset, fun p rest hp => step_of_packet hp h⟩
  case idle =>
    rw [step_of_nil hp] at h
    cases h
    rfl
  case reset =>
    rw [step_of_reset hp] at h
    cases h
    exact ⟨rfl, rfl⟩

/-- Settles O9: reset clears CTX_VALID, and without a context the context commands answer NoContext. -/
theorem resetEndsTheContext : Obligations.ResetEndsTheContext :=
  ⟨fun _ => rfl, fun _ _ hp => ⟨_, step_of_reset hp, rfl, rfl, rfl, rfl, fun _ hi => exec_noContext hi rfl⟩⟩

/-- Settles O43: a response is fixed by its STATUS and its result, which the packet's words give back. -/
theorem responsePacketsCarryStatusAndResult : Obligations.ResponsePacketsCarryStatusAndResult := by
  refine ⟨fun r => ⟨?_, toPacket_zero_bits r⟩, fun v => toPacket_result (.ok v), fun r r' h => ?_⟩
  · rw [toPacket_status, status_eq_zero_iff]
  · apply eq_of_status_result
    · rw [← toPacket_status, h, toPacket_status]
    · rw [← toPacket_result, h, toPacket_result]

end Sys2Proof.Proofs
end

section
/-! PROOF. The answers of PCLMUL, PREDUCE, PMODMUL and PMODEXP (40_ring.md rules R103, R105, R107, R109): what
`clmul`, `reduce` and `modExponentiate` give, in 128 bits. -/

namespace Sys2Proof.Machine

/-! ### The result in 128 bits -/

theorem lt_two_pow_of_le {n a b : Nat} (hn : n < 2 ^ a) (hab : a ≤ b) : n < 2 ^ b :=
  hn.trans_le (Nat.pow_le_pow_right Nat.two_pos hab)

/-- A value below 2^128 keeps its bits. -/
theorem getLsbD_zext128 {n : Nat} (hn : n < 2 ^ 128) (k : Nat) : (zext128 n).getLsbD k = n.testBit k := by
  rw [zext128, BitVec.getLsbD_ofNat]
  by_cases hk : k < 128
  · simp [hk]
  · simp [hk, Nat.testBit_lt_two_pow (lt_two_pow_of_le hn (not_lt.mp hk))]

/-- The two checks of a modulus of legal degree pass (rules R110, R111). -/
theorem deliver_checks_ok {m p : Nat} (h1 : 1 ≤ m) (h2 : m ≤ 63) (hp : deg p = (m : Int)) (s : State) (r : Wide) :
    deliver s (checkDegree m >>= fun _ => checkTop p m >>= fun _ => pure r) = .next (s.respond (.ok r)) := by
  rw [checkDegree_ok h1 h2, ok_bind, checkTop_ok hp, ok_bind, deliver_pure]

/-! ### Powers by repeated multiplication (rule R108) -/

theorem residue_modPower {f m : Nat} (hf : deg f = (m : Int)) (base e : Nat) :
    residue f (modPower base f m e) = residue f base ^ e := by
  induction e with
  | zero => simp [modPower]
  | succ e ih => rw [modPower, residue_modMultiply hf, ih, pow_succ]

theorem modPower_lt {f m : Nat} (hf : deg f = (m : Int)) (hm : 1 ≤ m) (base e : Nat) : modPower base f m e < 2 ^ m := by
  cases e with
  | zero => exact Nat.one_lt_two_pow (by omega)
  | succ e => exact modMultiply_lt hf _ _

/-- Repeated squaring gives the power by repeated multiplication. -/
theorem modExponentiate_eq_modPower {f m : Nat} (hf : deg f = (m : Int)) (hm : 1 ≤ m) (base e : Nat) :
    modExponentiate base e f m = modPower base f m e :=
  eq_of_residue_eq hf (modExponentiate_lt hf base e) (modPower_lt hf hm base e)
    (by rw [residue_modExponentiate hf, residue_modPower hf])

end Sys2Proof.Machine

namespace Sys2Proof.Proofs

open Sys2Proof Machine

/-- Settles O11: the 127 bits of the product, by the formula for the bits of `clmul`. -/
theorem pclmulIsTheCarrylessProduct : Obligations.PclmulIsTheCarrylessProduct := by
  intro a b s
  have hlt : clmul a.toNat b.toNat < 2 ^ 127 := clmul_lt (m := 63) (n := 63) a.isLt b.isLt
  have hbit (k : Nat) : (zext128 (clmul a.toNat b.toNat)).getLsbD k = (clmul a.toNat b.toNat).testBit k :=
    getLsbD_zext128 (hlt.trans (by decide)) k
  refine ⟨zext128 (clmul a.toNat b.toNat), rfl, fun k => ?_, ?_⟩
  · rw [hbit, testBit_clmul]
    rfl
  · rw [hbit, Nat.testBit_lt_two_pow hlt]

/-- Settles O14: the answer is `Reduce`, whose operand is it and a multiple of the modulus. -/
theorem preduceAnswersTheRemainder : Obligations.PreduceAnswersTheRemainder := by
  intro wide modulus m s h1 h2 hf
  obtain ⟨q, hq⟩ := exists_eq_clmul_xor_reduce hf wide.toNat
  exact ⟨q, _, deliver_checks_ok h1 h2 hf s _, reduce_lt hf _, hq⟩

/-- Settles O16: the answer is `Reduce` of the product, operands of any size. -/
theorem pmodmulAnswersTheProductsRemainder : Obligations.PmodmulAnswersTheProductsRemainder := by
  intro a b modulus m s h1 h2 hf
  obtain ⟨q, hq⟩ := exists_eq_clmul_xor_reduce hf (clmul a.toNat b.toNat)
  exact ⟨q, _, deliver_checks_ok h1 h2 hf s _, reduce_lt hf _, hq⟩

/-- Settles O17: repeated squaring and repeated multiplication give one residue. -/
theorem pmodexpAnswersThePower : Obligations.PmodexpAnswersThePower := by
  intro base exponent modulus m s h1 h2 hf
  rw [← modExponentiate_eq_modPower hf h1]
  exact deliver_checks_ok h1 h2 hf s _

end Sys2Proof.Proofs
end

section
/-! PROOF. IsIrreducible decides irreducibility in GF(2)[x] (41_checker.md rules R120, R121): an irreducible polynomial
of degree d divides x^(2^n) − x exactly when d divides n, so a polynomial of degree m that divides x^(2^m) − x and has
no factor in common with x^(2^i) − x, for every proper divisor i of m, has no irreducible factor of a degree below m. -/

namespace Sys2Proof.Machine

open Polynomial

/-! ### Numbers and polynomials -/

/-- Every polynomial over GF(2) is some number's. -/
theorem toPoly_surjective : Function.Surjective toPoly := by
  intro p
  induction p using Polynomial.induction_on' with
  | add p q hp hq =>
    obtain ⟨a, rfl⟩ := hp
    obtain ⟨b, rfl⟩ := hq
    exact ⟨a ^^^ b, toPoly_xor a b⟩
  | monomial n c =>
    obtain rfl | rfl : c = 0 ∨ c = 1 := by revert c; decide
    · exact ⟨0, by simp⟩
    · exact ⟨1 <<< n, by simp [Polynomial.monomial_one_right_eq_X_pow]⟩

theorem deg_eq_zero_iff {n : Nat} : deg n = 0 ↔ n = 1 := by
  rw [← Nat.cast_zero, deg_eq_iff]
  constructor
  · rintro ⟨h0, hlog⟩
    have : n < 2 ^ 1 := (Nat.log2_lt h0).mp (by omega)
    omega
  · rintro rfl
    exact ⟨one_ne_zero, rfl⟩

/-- The one unit of GF(2)[x] is 1. -/
theorem isUnit_toPoly_iff {n : Nat} : IsUnit (toPoly n) ↔ n = 1 := by
  refine ⟨fun h => ?_, fun h => by simp [h]⟩
  have h0 : n ≠ 0 := toPoly_eq_zero.not.mp h.ne_zero
  have hlog : Nat.log2 n = 0 := by rw [← natDegree_toPoly h0, natDegree_eq_zero_of_isUnit h]
  exact deg_eq_zero_iff.mp (deg_eq_iff.mpr ⟨h0, hlog⟩)

/-- Irreducible in the spec's words: no factorisation into two polynomials of positive degree (rule R120). -/
theorem irreducible_toPoly_iff {f m : Nat} (hf : deg f = (m : Int)) (hm : 1 ≤ m) :
    Irreducible (toPoly f) ↔ ∀ a b, f = clmul a b → deg a = 0 ∨ deg b = 0 := by
  have hunit : ¬ IsUnit (toPoly f) := by
    rw [isUnit_toPoly_iff, ← deg_eq_zero_iff, hf]
    omega
  simp only [irreducible_iff, hunit, not_false_eq_true, true_and, deg_eq_zero_iff, ← isUnit_toPoly_iff]
  constructor
  · rintro h a b rfl
    exact h (toPoly_clmul a b)
  · intro h p q hpq
    obtain ⟨a, rfl⟩ := toPoly_surjective p
    obtain ⟨b, rfl⟩ := toPoly_surjective q
    exact h a b (toPoly_injective (hpq.trans (toPoly_clmul a b).symm))

/-! ### The two parts of the test -/

theorem natDegree_toPoly_eq {f m : Nat} (hf : deg f = (m : Int)) : (toPoly f).natDegree = m := by
  obtain ⟨hf0, hlog⟩ := deg_eq_iff.mp hf
  rw [natDegree_toPoly hf0, hlog]

theorem residue_frobeniusOfX {f m : Nat} (hf : deg f = (m : Int)) (i : Nat) :
    residue f (frobeniusOfX f m i) = AdjoinRoot.mk (toPoly f) (X ^ 2 ^ i) := by
  rw [frobeniusOfX, residue_modExponentiate hf, residue, toPoly_two, map_pow]

theorem residue_reduce_two {f m : Nat} (hf : deg f = (m : Int)) :
    residue f (reduce 0b10 f m) = AdjoinRoot.mk (toPoly f) X := by
  rw [residue_reduce hf, residue, toPoly_two]

/-- Part (a): `x^(2^m) ≡ x`. -/
theorem frobeniusOfX_eq_iff {f m : Nat} (hf : deg f = (m : Int)) (i : Nat) :
    frobeniusOfX f m i = reduce 0b10 f m ↔ toPoly f ∣ X ^ 2 ^ i - X := by
  rw [← AdjoinRoot.mk_eq_mk, ← residue_frobeniusOfX hf, ← residue_reduce_two hf]
  exact ⟨congrArg _, eq_of_residue_eq hf (modExponentiate_lt hf _ _) (reduce_lt hf _)⟩

/-- Part (b): the gcd's divisors are the common divisors of f and x^(2^i) − x. -/
theorem dvd_gcd_frobeniusOfX {f m : Nat} (hf : deg f = (m : Int)) (i : Nat) (d : (ZMod 2)[X]) :
    d ∣ toPoly (polyGcd f (frobeniusOfX f m i ^^^ reduce 0b10 f m)) ↔ d ∣ toPoly f ∧ d ∣ X ^ 2 ^ i - X := by
  rw [dvd_polyGcd]
  refine and_congr_right fun hd => ?_
  have hmod : toPoly f ∣ toPoly (frobeniusOfX f m i ^^^ reduce 0b10 f m) - (X ^ 2 ^ i - X) := by
    rw [← AdjoinRoot.mk_eq_mk, CharTwo.sub_eq_add, map_add, ← residue_frobeniusOfX hf, ← residue_reduce_two hf]
    exact residue_xor ..
  exact dvd_iff_dvd_of_dvd_sub (hd.trans hmod)

theorem mem_properDivisors {m i : Nat} : i ∈ properDivisors m ↔ 1 ≤ i ∧ i < m ∧ i ∣ m := by
  simp only [properDivisors, List.mem_filter, List.mem_range, decide_eq_true_eq, Nat.dvd_iff_mod_eq_zero]
  tauto

/-- The test in GF(2)[x]: part (b) is that no irreducible polynomial divides both. -/
theorem isIrreducible_iff_dvd {f m : Nat} (hf : deg f = (m : Int)) :
    isIrreducible f m = true ↔ toPoly f ∣ X ^ 2 ^ m - X
      ∧ ∀ i, 1 ≤ i → i < m → i ∣ m → ∀ p : (ZMod 2)[X], Irreducible p → p ∣ toPoly f → ¬ p ∣ X ^ 2 ^ i - X := by
  have hgcd (i : Nat) : polyGcd f (frobeniusOfX f m i ^^^ reduce 0b10 f m) = 1
      ↔ ∀ p : (ZMod 2)[X], Irreducible p → p ∣ toPoly f → ¬ p ∣ X ^ 2 ^ i - X := by
    rw [← isUnit_toPoly_iff]
    constructor
    · intro hunit p hp hpf hpx
      exact hp.not_isUnit (isUnit_of_dvd_unit ((dvd_gcd_frobeniusOfX hf i p).mpr ⟨hpf, hpx⟩) hunit)
    · intro h
      by_contra hunit
      obtain ⟨hdvd, -⟩ := (dvd_gcd_frobeniusOfX hf i _).mp dvd_rfl
      have hne : toPoly (polyGcd f (frobeniusOfX f m i ^^^ reduce 0b10 f m)) ≠ 0 :=
        ne_zero_of_dvd_ne_zero (toPoly_eq_zero.not.mpr (deg_eq_iff.mp hf).1) hdvd
      obtain ⟨p, hp, hpd⟩ := WfDvdMonoid.exists_irreducible_factor hunit hne
      obtain ⟨hpf, hpx⟩ := (dvd_gcd_frobeniusOfX hf i p).mp hpd
      exact h p hp hpf hpx
  simp only [isIrreducible, Bool.and_eq_true, beq_iff_eq, frobeniusOfX_eq_iff hf, List.all_eq_true, mem_properDivisors,
    hgcd, and_imp]

/-! ### The test decides -/

/-- An irreducible polynomial divides x^(2^n) − x exactly when its degree divides n. -/
theorem irreducible_dvd_iff {p : (ZMod 2)[X]} (hp : Irreducible p) (n : Nat) :
    p ∣ X ^ 2 ^ n - X ↔ p.natDegree ∣ n := by
  rw [hp.natDegree_dvd_iff_dvd_X_pow_card_pow_sub_X, Nat.card_zmod]

theorem isIrreducible_iff {f m : Nat} (hf : deg f = (m : Int)) (hm : 1 ≤ m) :
    isIrreducible f m = true ↔ Irreducible (toPoly f) := by
  have hf0 : toPoly f ≠ 0 := toPoly_eq_zero.not.mpr (deg_eq_iff.mp hf).1
  have hdeg : (toPoly f).natDegree = m := natDegree_toPoly_eq hf
  rw [isIrreducible_iff_dvd hf]
  constructor
  · rintro ⟨hx, hproper⟩
    obtain ⟨p, hp, hpf⟩ := exists_irreducible_of_natDegree_pos (f := toPoly f) (by omega)
    have hpm : p.natDegree ∣ m := (irreducible_dvd_iff hp m).mp (hpf.trans hx)
    have hle : p.natDegree ≤ m := Nat.le_of_dvd hm hpm
    rcases Nat.lt_or_eq_of_le hle with hlt | heq
    · exact absurd ((irreducible_dvd_iff hp _).mpr dvd_rfl) (hproper _ hp.natDegree_pos hlt hpm p hp hpf)
    · exact (associated_of_dvd_of_natDegree_le hpf hf0 (by omega)).irreducible hp
  · intro hirr
    refine ⟨(irreducible_dvd_iff hirr m).mpr hdeg.dvd, fun i hi him _ p hp hpf hpx => ?_⟩
    have hassoc : Associated p (toPoly f) := hp.associated_of_dvd hirr hpf
    have hmi : m ∣ i := hdeg ▸ (irreducible_dvd_iff hirr i).mp (hassoc.dvd_iff_dvd_left.mp hpx)
    exact absurd (Nat.le_of_dvd hi hmi) (by omega)

end Sys2Proof.Machine

namespace Sys2Proof.Proofs

open Sys2Proof Machine

/-- Settles O19: the test decides irreducibility in GF(2)[x], where units are the polynomials of degree 0. -/
theorem isirredDecidesIrreducibility : Obligations.IsirredDecidesIrreducibility := by
  intro poly m s h1 h2 hf
  refine ⟨_, deliver_checks_ok h1 h2 hf s _, ?_⟩
  rw [← irreducible_toPoly_iff hf h1, ← isIrreducible_iff hf h1]
  cases isIrreducible poly.toNat m <;> simp [zext128]

end Sys2Proof.Proofs
end

section
/-! PROOF. The canonical modulus (41_checker.md rules R122 to R125): the search is total because the table of rule R125
names an irreducible candidate of every legal degree. -/

namespace Sys2Proof.Machine

/-! ### The search -/

/-- The result of the search is the first irreducible candidate (rule R123). -/
theorem findCanonical_eq_some_iff {m : Nat} {f : Poly} : findCanonical m = some f ↔ isCanonical f m := by
  rw [findCanonical, List.find?_eq_some_iff_append, isCanonical]
  constructor
  · rintro ⟨hirr, before, after, hc, hbefore⟩
    exact ⟨before, after, hc, fun g hg => by simpa using hbefore g hg, hirr⟩
  · rintro ⟨before, after, hc, hbefore, hirr⟩
    exact ⟨hirr, before, after, hc, fun g hg => by simpa using hbefore g hg⟩

theorem selectCanonical_ok_iff {m : Nat} {f : Poly} : selectCanonical m = .ok f ↔ isCanonical f m := by
  rw [← findCanonical_eq_some_iff, selectCanonical]
  cases findCanonical m <;> simp [modelFault]

theorem exists_isCanonical_of_mem {m : Nat} {f : Poly} (hf : f ∈ candidates m) (hirr : isIrreducible f m = true) :
    ∃ g, isCanonical g m := by
  have hfound : (findCanonical m).isSome = true := List.find?_isSome.mpr ⟨f, hf, hirr⟩
  obtain ⟨g, hg⟩ := Option.isSome_iff_exists.mp hfound
  exact ⟨g, findCanonical_eq_some_iff.mp hg⟩

/-! ### The candidates' degree -/

theorem deg_two_pow_add {m n : Nat} (hn : n < 2 ^ m) : deg (2 ^ m + n) = (m : Int) := by
  refine deg_eq_iff.mpr ⟨by omega, ?_⟩
  rw [Nat.log2_eq_iff (by omega), pow_succ]
  omega

/-- Every candidate of degree m has its top bit at m (rule R122). -/
theorem deg_of_mem_candidates {m : Nat} {f : Poly} (hm : 1 ≤ m) (hf : f ∈ candidates m) : deg f = (m : Int) := by
  rcases Nat.lt_or_eq_of_le hm with h2 | rfl
  · have hone {c : Nat} (hc : 1 ≤ c) : 1 < 2 ^ c := Nat.one_lt_two_pow (by omega)
    rw [candidates_of_two_le h2, List.mem_append, mem_pentanomials, trinomials, List.mem_map] at hf
    rcases hf with ⟨k, hk, rfl⟩ | ⟨a, b, c, ha, hb, hc, hc1, rfl⟩
    · obtain ⟨hk1, hkm⟩ := mem_range'_one.mp hk
      exact deg_two_pow_add (two_pow_add_lt (hone hk1) hkm)
    · have hlow : 2 ^ a + (2 ^ b + (2 ^ c + 1)) < 2 ^ m :=
        two_pow_add_lt (two_pow_add_lt (two_pow_add_lt (hone hc1) hc) hb) ha
      rw [show 2 ^ m + 2 ^ a + 2 ^ b + 2 ^ c + 1 = 2 ^ m + (2 ^ a + (2 ^ b + (2 ^ c + 1))) by omega]
      exact deg_two_pow_add hlow
  · obtain rfl : f = 3 := by simpa [candidates] using hf
    decide

theorem deg_of_isCanonical {m : Nat} {f : Poly} (hm : 1 ≤ m) (h : isCanonical f m) : deg f = (m : Int) := by
  obtain ⟨before, after, hc, -, -⟩ := h
  exact deg_of_mem_candidates hm (by simp [hc])

/-! ### The table of rule R125 -/

/-- The exponents of the table's moduli between m and 0, from m = 1 on. -/
def innerExponents : List (List Nat) :=
  [[], [1], [1], [1], [2], [1], [1], [4, 3, 1], [1], [3], [2], [3], [4, 3, 1], [5], [1], [5, 3, 1],
   [3], [3], [5, 2, 1], [3], [2], [1], [5], [4, 3, 1], [3], [4, 3, 1], [5, 2, 1], [1], [2], [1], [3], [7, 3, 2],
   [10], [7], [2], [9], [6, 4, 1], [6, 5, 1], [4], [5, 4, 3], [3], [7], [6, 4, 3], [5], [4, 3, 1], [1], [5], [5, 3, 2],
   [9], [4, 3, 2], [6, 3, 1], [3], [6, 2, 1], [9], [7], [7, 4, 2], [4], [19], [7, 4, 2], [1], [5, 2, 1], [29], [1]]

/-- The exponents of row m: none, one, or three in falling order. -/
def innerRow (m : Nat) : List Nat := innerExponents.getD (m - 1) []

/-- The modulus of row m. -/
def tabledModulus (m : Nat) : Poly := 2 ^ m + ((innerRow m).map (2 ^ ·)).sum + 1

/-- Exponents of a candidate of degree m (rule R122). -/
def innerOk (m : Nat) : List Nat → Bool
  | [] => m == 1
  | [k] => decide (1 ≤ k ∧ k < m)
  | [a, b, c] => decide (a < m ∧ b < a ∧ c < b ∧ 1 ≤ c)
  | _ => false

/-- The row names an irreducible candidate. -/
def tabledOk (m : Nat) : Bool := innerOk m (innerRow m) && isIrreducible (tabledModulus m) m

theorem mem_candidates_of_innerOk {m : Nat} : ∀ {l : List Nat}, innerOk m l = true →
    2 ^ m + (l.map (2 ^ ·)).sum + 1 ∈ candidates m
  | [], h => by
    obtain rfl : m = 1 := by simpa [innerOk] using h
    decide
  | [k], h => by
    obtain ⟨hk1, hkm⟩ : 1 ≤ k ∧ k < m := by simpa [innerOk] using h
    rw [candidates_of_two_le (by omega), List.mem_append, trinomials, List.mem_map]
    exact .inl ⟨k, mem_range'_one.mpr ⟨hk1, hkm⟩, by simp⟩
  | [a, b, c], h => by
    obtain ⟨ha, hb, hc, hc1⟩ : a < m ∧ b < a ∧ c < b ∧ 1 ≤ c := by simpa [innerOk] using h
    rw [candidates_of_two_le (by omega), List.mem_append, mem_pentanomials]
    exact .inr ⟨a, b, c, ha, hb, hc, hc1, by simp; omega⟩
  | [_, _], h => by cases h
  | _ :: _ :: _ :: _ :: _, h => by cases h

theorem tabledOk_1_to_16 : ∀ m ∈ List.range' 1 16, tabledOk m = true := by decide +kernel
theorem tabledOk_17_to_32 : ∀ m ∈ List.range' 17 16, tabledOk m = true := by decide +kernel
theorem tabledOk_33_to_48 : ∀ m ∈ List.range' 33 16, tabledOk m = true := by decide +kernel
theorem tabledOk_49_to_63 : ∀ m ∈ List.range' 49 15, tabledOk m = true := by decide +kernel

theorem tabledOk_of_legal {m : Nat} (h1 : 1 ≤ m) (h2 : m ≤ 63) : tabledOk m = true := by
  by_cases h16 : m < 17
  · exact tabledOk_1_to_16 m (List.mem_range'_1.mpr (by omega))
  by_cases h32 : m < 33
  · exact tabledOk_17_to_32 m (List.mem_range'_1.mpr (by omega))
  by_cases h48 : m < 49
  · exact tabledOk_33_to_48 m (List.mem_range'_1.mpr (by omega))
  · exact tabledOk_49_to_63 m (List.mem_range'_1.mpr (by omega))

/-- The search succeeds for every legal degree (rule R125). -/
theorem exists_isCanonical {m : Nat} (h1 : 1 ≤ m) (h2 : m ≤ 63) : ∃ f, isCanonical f m := by
  obtain ⟨hinner, hirr⟩ := Bool.and_eq_true_iff.mp (tabledOk_of_legal h1 h2)
  exact exists_isCanonical_of_mem (mem_candidates_of_innerOk hinner) hirr

end Sys2Proof.Machine

namespace Sys2Proof.Proofs

open Sys2Proof Machine

/-- Settles O21: the table of rule R125 gives every legal degree an irreducible candidate, so the search ends. -/
theorem selcanonAnswersTheFirstIrreducibleCandidate : Obligations.SelcanonAnswersTheFirstIrreducibleCandidate := by
  intro m s h1 h2
  obtain ⟨f, hf⟩ := exists_isCanonical h1 h2
  refine ⟨f, hf, deg_of_isCanonical h1 hf, ?_⟩
  show deliver s (checkDegree m >>= fun _ => selectCanonical m >>= fun f => pure (zext128 f)) = _
  rw [checkDegree_ok h1 h2, ok_bind, selectCanonical_ok_iff.mpr hf, ok_bind, deliver_pure, zext128]

end Sys2Proof.Proofs
end

section
/-! PROOF. The two phases of CREATE (43_context.md rules R170, R171): the modulus and the strategy that phase 1 chooses,
the errors it raises in their order, and the descriptor that phase 2 leaves (10_state.md rules R25 to R27). -/

namespace Sys2Proof.Machine

/-! ### Phase 1 -/

@[simp] theorem raise_ne_ok {α : Type} (code : ErrorCode) (a : α) : (raise code : Cmd α) ≠ .ok a := nofun

@[simp] theorem pure_eq_ok_iff {α : Type} {a b : α} : (pure a : Cmd α) = .ok b ↔ a = b := Except.ok.injEq a b ▸ Iff.rfl

theorem chooseModulus_ok_iff {m : Nat} {modulus : Option Word} {fb : Bool} {f : Poly} :
    chooseModulus m modulus fb = .ok f ↔ choosesModulus m modulus fb f := by
  cases modulus with
  | none => exact selectCanonical_ok_iff
  | some a =>
    by_cases ha : deg a.toNat = (m : Int)
    · cases hirr : isIrreducible a.toNat m <;> cases fb <;>
        simp [chooseModulus, choosesModulus, checkTop_ok ha, ha, hirr, selectCanonical_ok_iff, eq_comm (a := f)]
    · simp [chooseModulus, choosesModulus, checkTop_raise ha, ha]

theorem chooseModulus_reducible {m : Nat} {a : Word} (ha : deg a.toNat = (m : Int))
    (hirr : isIrreducible a.toNat m = false) : chooseModulus m (some a) false = raise .polynomialNotIrreducible := by
  simp [chooseModulus, checkTop_ok ha, hirr]

section LegalDegree
variable {m : Nat} (h1 : 1 ≤ m) (h2 : m ≤ 63)
include h1 h2

/-- The degree check passes, and the modulus comes before the strategy. -/
theorem createChecks_of_legal (s : State) (modulus : Option Word) (hint : Hint) (fb : Bool) :
    createChecks s m modulus hint fb
      = (chooseModulus m modulus fb >>= fun f => resolveStrategy s m hint >>= fun strategy => pure (f, strategy)) := by
  rw [createChecks, checkDegree_ok h1 h2, ok_bind]

theorem createChecks_of_choosesModulus {modulus : Option Word} {fb : Bool} {f : Poly}
    (hf : choosesModulus m modulus fb f) (s : State) (hint : Hint) :
    createChecks s m modulus hint fb = (resolveStrategy s m hint >>= fun strategy => pure (f, strategy)) := by
  rw [createChecks_of_legal h1 h2, chooseModulus_ok_iff.mpr hf, ok_bind]

/-- With a modulus to build on and a strategy, CREATE is its phase 2. -/
theorem exec_create_of_strategy {modulus : Option Word} {hint : Hint} {fb : Bool} {f : Poly} {s : State}
    {strategy : Strategy} (hf : choosesModulus m modulus fb f) (hs : resolveStrategy s m hint = .ok strategy) :
    exec (.create m modulus hint fb) s
      = conclude s (createCommit s f m strategy >>= fun t => pure (t, zext128 0)) := by
  show execCreate m modulus hint fb s = _
  rw [execCreate_eq, createChecks_of_choosesModulus h1 h2 hf, hs, ok_bind, pure_bind_cmd]

end LegalDegree

/-- Phase 1 passes only with a legal degree, a modulus to build on, and a strategy. -/
theorem createChecks_ok {s : State} {m : Nat} {modulus : Option Word} {hint : Hint} {fb : Bool} {f : Poly}
    {strategy : Strategy} (h : createChecks s m modulus hint fb = .ok (f, strategy)) :
    (1 ≤ m ∧ m ≤ 63) ∧ choosesModulus m modulus fb f ∧ resolveStrategy s m hint = .ok strategy := by
  have hm : 1 ≤ m ∧ m ≤ 63 := by
    by_contra hm
    rw [createChecks, checkDegree_raise (by omega)] at h
    cases h
  obtain ⟨h1, h2⟩ := hm
  rw [createChecks_of_legal h1 h2] at h
  cases hf : chooseModulus m modulus fb with
  | error e =>
    rw [hf] at h
    cases h
  | ok f' =>
    rw [hf, ok_bind] at h
    cases hs : resolveStrategy s m hint with
    | error e =>
      rw [hs] at h
      cases h
    | ok strategy' =>
      rw [hs] at h
      cases h
      exact ⟨⟨h1, h2⟩, chooseModulus_ok_iff.mp hf, rfl⟩

/-- A chosen modulus has the degree asked for and is irreducible (rules R25, R26). -/
theorem choosesModulus_spec {m : Nat} {modulus : Option Word} {fb : Bool} {f : Poly} (hm : 1 ≤ m)
    (h : choosesModulus m modulus fb f) : deg f = (m : Int) ∧ isIrreducible f m = true := by
  have canonical (hc : isCanonical f m) : deg f = (m : Int) ∧ isIrreducible f m = true := by
    refine ⟨deg_of_isCanonical hm hc, ?_⟩
    obtain ⟨-, -, -, -, hirr⟩ := hc
    exact hirr
  cases modulus with
  | none => exact canonical h
  | some a =>
    obtain ⟨hdeg, ⟨hirr, rfl⟩ | ⟨-, -, hc⟩⟩ := h
    · exact ⟨hdeg, hirr⟩
    · exact canonical hc

theorem le_ceiling_of_resolveStrategy {s : State} {m : Nat} {hint : Hint}
    (h : resolveStrategy s m hint = .ok .table) : m ≤ s.tableCeiling.val := by
  rcases resolveStrategy_cases s m hint with ⟨_, _, hs⟩ | ⟨_, hm, _⟩ | ⟨_, hs⟩
  · rw [hs] at h
    cases h
  · exact hm
  · rw [hs] at h
    cases h

/-! ### Phase 2 -/

theorem lt_two_pow_of_deg {f m n : Nat} (hf : deg f = (m : Int)) (hm : m < n) : f < 2 ^ n :=
  deg_lt_iff.mp (by omega)

/-- The registers hold the degree and the modulus of a legal descriptor whole (rules R25, R26). -/
theorem setDescriptor_values {f m : Nat} (h2 : m ≤ 63) (hf : deg f = (m : Int)) (s : State) (strategy : Strategy) :
    (s.setDescriptor f m strategy).m = m ∧ (s.setDescriptor f m strategy).modulus = f :=
  ⟨setDescriptor_m (by omega), setDescriptor_modulus (lt_two_pow_of_deg hf (by omega))⟩

theorem setDescriptor_descriptorOk {f m : Nat} (h1 : 1 ≤ m) (h2 : m ≤ 63) (hf : deg f = (m : Int))
    (hirr : isIrreducible f m = true) (s : State) (strategy : Strategy) :
    (s.setDescriptor f m strategy).descriptorOk := by
  obtain ⟨hm, hmod⟩ := setDescriptor_values h2 hf s strategy
  rw [State.descriptorOk, hm, hmod]
  exact ⟨h1, hf, hirr⟩

/-- What CREATE answers, with what phase 1 has checked: an error's response, a Direct context, or a Table context at or
below the ceiling with a generator found. -/
theorem create_next_cases {m : Nat} {modulus : Option Word} {hint : Hint} {fb : Bool} {s t : State}
    (h : exec (.create m modulus hint fb) s = .next t) :
    (∃ code, t = s.respond (.err code))
      ∨ ∃ f, (1 ≤ m ∧ m ≤ 63) ∧ (deg f = (m : Int) ∧ isIrreducible f m = true)
        ∧ (t = (s.setDescriptor f m .direct).respond (.ok 0#128)
          ∨ ∃ g, m ≤ s.tableCeiling.val ∧ searchGenerator f m = some g
            ∧ t = (((build f m g s).setGenerator g).setDescriptor f m .table).respond (.ok 0#128)) := by
  rcases execCreate_next h with ⟨code, _, rfl⟩ | ⟨f, hc, rfl⟩ | ⟨f, g, hc, hg, rfl⟩
  · exact .inl ⟨code, rfl⟩
  · obtain ⟨hm, hf, -⟩ := createChecks_ok hc
    exact .inr ⟨f, hm, choosesModulus_spec hm.1 hf, .inl rfl⟩
  · obtain ⟨hm, hf, hs⟩ := createChecks_ok hc
    exact .inr ⟨f, hm, choosesModulus_spec hm.1 hf, .inr ⟨g, le_ceiling_of_resolveStrategy hs, hg, rfl⟩⟩

/-- What rules R25 to R27 say of the context registers. -/
abbrev State.registersOk (s : State) : Prop :=
  s.ctxValid = true → s.descriptorOk ∧ (s.ctxStrat = .table → s.m ≤ s.tableCeiling.val)

theorem create_registersOk {m : Nat} {modulus : Option Word} {hint : Hint} {fb : Bool} {s t : State}
    (hs : s.registersOk) (h : exec (.create m modulus hint fb) s = .next t) : t.registersOk := by
  rcases create_next_cases h with ⟨code, rfl⟩ | ⟨f, ⟨h1, h2⟩, ⟨hf, hirr⟩, rfl | ⟨g, hceiling, -, rfl⟩⟩
  · exact hs
  · exact fun _ => ⟨setDescriptor_descriptorOk h1 h2 hf hirr s .direct, nofun⟩
  · refine fun _ => ⟨setDescriptor_descriptorOk h1 h2 hf hirr ((build f m g s).setGenerator g) .table, fun _ => ?_⟩
    rw [respond_m, (setDescriptor_values h2 hf _ _).1]
    simpa using hceiling

end Sys2Proof.Machine

namespace Sys2Proof.Proofs

open Sys2Proof Machine

/-- Settles O53: CREATE alone writes the context registers, after its checks. -/
theorem stepKeepsTheDescriptorValid : Obligations.StepKeepsTheDescriptorValid := fun _ _ =>
  step_preserves (P := State.registersOk) (fun _ _ hs => hs) (fun _ _ hs => hs) (fun _ _ => nofun)
    (fun _ _ _ _ _ _ => create_registersOk)

/-- Settles O27: the modulus is chosen before the strategy. -/
theorem createErrorsInOrder : Obligations.CreateErrorsInOrder := by
  refine fun m s h1 h2 => ⟨fun a hint hdeg hirr => ?_, fun modulus fb f hf hceiling => ?_⟩
  · show execCreate m (some a) hint false s = _
    rw [execCreate_eq, createChecks_of_legal h1 h2, chooseModulus_reducible hdeg hirr, raise_bind, raise_bind,
      conclude_raise]
  · have hstrategy : resolveStrategy s m .table = raise .capacityExceeded := by
      simp [resolveStrategy, tableAvailable, Nat.not_le.mpr hceiling]
    show execCreate m modulus .table fb s = _
    rw [execCreate_eq, createChecks_of_choosesModulus h1 h2 hf, hstrategy, raise_bind, raise_bind, conclude_raise]

/-- Settles O28: phase 2 of a Direct context writes the descriptor and nothing else. -/
theorem createDirectWritesTheDescriptor : Obligations.CreateDirectWritesTheDescriptor := by
  intro m modulus hint fb f s h1 h2 hf hhint
  have hstrategy : resolveStrategy s m hint = .ok .direct := by
    rcases resolveStrategy_cases s m hint with ⟨rfl, _, _⟩ | ⟨hd, hle, _⟩ | ⟨_, hs⟩
    · simp at hhint
    · rcases hhint with rfl | ⟨_, hlt⟩
      · exact absurd rfl hd
      · omega
    · exact hs
  rw [exec_create_of_strategy h1 h2 hf hstrategy]
  rfl

end Sys2Proof.Proofs
end

section
/-! PROOF. The errors of the commands (60_exceptions.md rules R201, R211): the checks of each command in their order,
and the codes that its pseudocode can raise. -/

namespace Sys2Proof.Machine

/-! ### The field commands past their checks (43_context.md rules R173 to R179) -/

section Context
variable {s : State} (hs : s.ctxValid = true)
include hs

theorem exec_rdalog_direct (hd : s.ctxStrat = .direct) (i : Word) :
    exec (.rdalog i) s = .next (s.respond (.err .noTable)) := by
  simp [exec, execRdalog, requireContext_ok hs, requireTable_raise hd]

theorem exec_rdlog_direct (hd : s.ctxStrat = .direct) (a : Word) :
    exec (.rdlog a) s = .next (s.respond (.err .noTable)) := by
  simp [exec, execRdlog, requireContext_ok hs, requireTable_raise hd]

theorem exec_rdalog_outOfRange (ht : s.ctxStrat = .table) {i : Word} (hi : s.order ≤ i.toNat) :
    exec (.rdalog i) s = .next (s.respond (.err .indexOutOfRange)) := by
  simp [exec, execRdalog, requireContext_ok hs, requireTable_ok ht, checkIndex_raise hi]

theorem exec_rdlog_outOfRange (ht : s.ctxStrat = .table) {a : Word} (ha : a.toNat = 0 ∨ 2 ^ s.m ≤ a.toNat) :
    exec (.rdlog a) s = .next (s.respond (.err .operandOutOfRange)) := by
  simp [exec, execRdlog, requireContext_ok hs, requireTable_ok ht, checkLogOperand_raise ha]

theorem exec_rdalog_of_lookup (ht : s.ctxStrat = .table) {i : Word} {v : Nat} (hi : i.toNat < s.order)
    (hv : s.antilog.lookup i.toNat = some v) : exec (.rdalog i) s = .next (s.respond (.ok (zext128 v))) := by
  have hread : tblRead s .antilog i.toNat = .ok v := tblRead_ok hs ht (decide_eq_true hi) hv
  simp [exec, execRdalog, requireContext_ok hs, requireTable_ok ht, checkIndex_ok hi, hread]

theorem exec_rdlog_of_lookup (ht : s.ctxStrat = .table) {a : Word} {v : Nat} (h1 : 1 ≤ a.toNat)
    (h2 : a.toNat < 2 ^ s.m) (hv : s.log.lookup a.toNat = some v) :
    exec (.rdlog a) s = .next (s.respond (.ok (zext128 v))) := by
  have hread : tblRead s .log a.toNat = .ok v := tblRead_ok hs ht (by simp [TableId.inRange, h1, h2]) hv
  simp [exec, execRdlog, requireContext_ok hs, requireTable_ok ht, checkLogOperand_ok h1 h2, hread]

theorem exec_findgen_of_search {g : Poly} (hg : searchGenerator s.modulus s.m = some g) :
    exec .findgen s = .next (s.respond (.ok (zext128 g))) := by
  simp [exec, execFindgen, requireContext_ok hs, findGenerator, hg]

/-- Two operands are checked one after the other, with one error. -/
theorem deliver_checkElements_raise {a b : Nat} (hab : 2 ^ s.m ≤ a ∨ 2 ^ s.m ≤ b) (k : Unit → Cmd Wide) :
    deliver s (requireContext s >>= fun _ => checkElement s a >>= fun _ => checkElement s b >>= k)
      = .next (s.respond (.err .operandOutOfRange)) := by
  rw [requireContext_ok hs, ok_bind]
  by_cases ha : 2 ^ s.m ≤ a
  · rw [checkElement_raise ha, raise_bind, deliver_raise]
  · rw [checkElement_ok (not_le.mp ha), ok_bind, checkElement_raise (hab.resolve_left ha), raise_bind, deliver_raise]

theorem deliver_checkElements_ok {a b : Nat} (ha : a < 2 ^ s.m) (hb : b < 2 ^ s.m) (k : Unit → Cmd Wide) :
    deliver s (requireContext s >>= fun _ => checkElement s a >>= fun _ => checkElement s b >>= k)
      = deliver s (k ()) := by
  rw [requireContext_ok hs, ok_bind, checkElement_ok ha, ok_bind, checkElement_ok hb, ok_bind]

theorem exec_fadd {a b : Word} (ha : a.toNat < 2 ^ s.m) (hb : b.toNat < 2 ^ s.m) :
    exec (.fadd a b) s = .next (s.respond (.ok (zext128 (polyAdd a.toNat b.toNat)))) :=
  deliver_checkElements_ok hs ha hb _

theorem exec_fmul_of_ok {a b : Word} {r : Nat} (ha : a.toNat < 2 ^ s.m) (hb : b.toNat < 2 ^ s.m)
    (hr : fieldMultiply s a.toNat b.toNat = .ok r) : exec (.fmul a b) s = .next (s.respond (.ok (zext128 r))) := by
  refine (deliver_checkElements_ok hs ha hb _).trans ?_
  rw [hr, ok_bind, deliver_pure]

theorem exec_fdiv_of_ok {a b : Word} {r : Nat} (ha : a.toNat < 2 ^ s.m) (hb : b.toNat < 2 ^ s.m) (hb0 : b.toNat ≠ 0)
    (hr : fieldDivide s a.toNat b.toNat = .ok r) : exec (.fdiv a b) s = .next (s.respond (.ok (zext128 r))) := by
  refine (deliver_checkElements_ok hs ha hb _).trans ?_
  rw [if_neg hb0, hr]
  rfl

theorem exec_fdiv_zero {a b : Word} (ha : a.toNat < 2 ^ s.m) (hb : b.toNat = 0) :
    exec (.fdiv a b) s = .next (s.respond (.err .divisionByZero)) := by
  refine (deliver_checkElements_ok hs ha (hb ▸ Nat.two_pow_pos s.m) _).trans ?_
  rw [if_pos hb]
  rfl

theorem exec_finv_outOfRange {a : Word} (ha : 2 ^ s.m ≤ a.toNat) :
    exec (.finv a) s = .next (s.respond (.err .operandOutOfRange)) := by
  simp [exec, execFinv, requireContext_ok hs, checkElement_raise ha]

theorem exec_finv_zero {a : Word} (ha : a.toNat = 0) :
    exec (.finv a) s = .next (s.respond (.err .inversionOfZero)) := by
  have hcheck : checkElement s 0 = .ok () := checkElement_ok (Nat.two_pow_pos s.m)
  simp [exec, execFinv, requireContext_ok hs, ha, hcheck]

theorem exec_finv_of_ok {a : Word} {r : Nat} (ha : a.toNat < 2 ^ s.m) (ha0 : a.toNat ≠ 0)
    (hr : fieldInvert s a.toNat = .ok r) : exec (.finv a) s = .next (s.respond (.ok (zext128 r))) := by
  simp [exec, execFinv, requireContext_ok hs, checkElement_ok ha, ha0, hr]

end Context

/-! ### How a piece of pseudocode can end -/

/-- The value satisfies `P`; an error or a fault satisfies `Q`. -/
def Ends {α : Type} (P : α → Prop) (Q : Stop → Prop) : Cmd α → Prop
  | .ok a => P a
  | .error e => Q e

section Ends
variable {α β : Type} {P : α → Prop} {P' : β → Prop} {Q : Stop → Prop}

theorem ends_pure {a : α} (h : P a) : Ends P Q (pure a) := h

theorem ends_bind {c : Cmd α} {k : α → Cmd β} (hc : Ends P Q c) (hk : ∀ a, P a → Ends P' Q (k a)) :
    Ends P' Q (c >>= k) := by
  cases c with
  | ok a => exact hk a hc
  | error e => exact hc

theorem ends_checkDegree {m : Nat} (h : Q (.raise .degreeOutOfRange)) :
    Ends (fun _ => 1 ≤ m ∧ m ≤ 63) Q (checkDegree m) := by
  by_cases hm : 1 ≤ m ∧ m ≤ 63
  · rw [checkDegree_ok hm.1 hm.2]
    exact hm
  · rw [checkDegree_raise (by omega)]
    exact h

theorem ends_checkTop {p m : Nat} (h : Q (.raise .polynomialDegreeMismatch)) :
    Ends (fun _ => deg p = (m : Int)) Q (checkTop p m) := by
  by_cases hp : deg p = (m : Int)
  · rw [checkTop_ok hp]
    exact hp
  · rw [checkTop_raise hp]
    exact h

variable {s : State}

theorem ends_requireContext (h : Q (.raise .noContext)) : Ends (fun _ => s.ctxValid = true) Q (requireContext s) := by
  cases hs : s.ctxValid with
  | true => exact requireContext_ok hs ▸ rfl
  | false => exact requireContext_raise hs ▸ h

theorem ends_requireTable (h : Q (.raise .noTable)) : Ends (fun _ => s.ctxStrat = .table) Q (requireTable s) := by
  cases hs : s.ctxStrat with
  | table => exact requireTable_ok hs ▸ rfl
  | direct => exact requireTable_raise hs ▸ h

theorem ends_checkElement {v : Nat} (h : Q (.raise .operandOutOfRange)) :
    Ends (fun _ => v < 2 ^ s.m) Q (checkElement s v) := by
  by_cases hv : v < 2 ^ s.m
  · exact checkElement_ok hv ▸ hv
  · exact checkElement_raise (not_lt.mp hv) ▸ h

theorem ends_checkIndex {i : Nat} (h : Q (.raise .indexOutOfRange)) :
    Ends (fun _ => i < s.order) Q (checkIndex s i) := by
  by_cases hi : i < s.order
  · exact checkIndex_ok hi ▸ hi
  · exact checkIndex_raise (not_lt.mp hi) ▸ h

theorem ends_checkLogOperand {a : Nat} (h : Q (.raise .operandOutOfRange)) :
    Ends (fun _ => 1 ≤ a ∧ a < 2 ^ s.m) Q (checkLogOperand s a) := by
  by_cases ha : 1 ≤ a ∧ a < 2 ^ s.m
  · exact checkLogOperand_ok ha.1 ha.2 ▸ ha
  · exact checkLogOperand_raise (s := s) (a := a) (by omega) ▸ h

theorem ends_ite {p : Prop} [Decidable p] {c d : Cmd α} (hc : p → Ends P Q c) (hd : ¬ p → Ends P Q d) :
    Ends P Q (if p then c else d) := by
  split
  · exact hc ‹p›
  · exact hd ‹¬ p›

end Ends

/-! ### What raises no error -/

/-- The errors among `codes`, and any fault. -/
def StopsWithin (codes : List ErrorCode) : Stop → Prop
  | .raise code => code ∈ codes
  | .fault _ => True

/-- The command's pseudocode raises no error but those of `codes`. -/
abbrev RaisesOnly {α : Type} (codes : List ErrorCode) (c : Cmd α) : Prop := Ends (fun _ => True) (StopsWithin codes) c

theorem raisesOnly_iff {α : Type} {codes : List ErrorCode} {c : Cmd α} :
    RaisesOnly codes c ↔ ∀ code, c = raise code → code ∈ codes := by
  rcases cmd_cases c with ⟨a, rfl⟩ | ⟨code, rfl⟩ | ⟨f, rfl⟩
  · exact iff_of_true trivial nofun
  · exact ⟨fun h _ hc => by cases hc; exact h, fun h => h code rfl⟩
  · exact iff_of_true trivial nofun

section NoErrors
variable {codes : List ErrorCode} (s : State)

theorem raisesOnly_tblRead (T : TableId) (i : Nat) : RaisesOnly codes (tblRead s T i) :=
  raisesOnly_iff.mpr fun code h => absurd h (tblRead_ne_raise s T i code)

theorem raisesOnly_tableMultiply (a b : Nat) : RaisesOnly codes (tableMultiply s a b) :=
  ends_bind (raisesOnly_tblRead s _ _) fun _ _ => ends_bind (raisesOnly_tblRead s _ _) fun _ _ =>
    raisesOnly_tblRead s _ _

theorem raisesOnly_tableDivide (a b : Nat) : RaisesOnly codes (tableDivide s a b) :=
  ends_bind (raisesOnly_tblRead s _ _) fun _ _ => ends_bind (raisesOnly_tblRead s _ _) fun _ _ =>
    raisesOnly_tblRead s _ _

theorem raisesOnly_tableInvert (a : Nat) : RaisesOnly codes (tableInvert s a) :=
  ends_bind (raisesOnly_tblRead s _ _) fun _ _ => raisesOnly_tblRead s _ _

theorem raisesOnly_fieldMultiply (a b : Nat) : RaisesOnly codes (fieldMultiply s a b) := by
  unfold fieldMultiply
  split
  · trivial
  · split
    · trivial
    · exact raisesOnly_tableMultiply s a b

theorem raisesOnly_fieldDivide (a b : Nat) : RaisesOnly codes (fieldDivide s a b) := by
  unfold fieldDivide
  split
  · trivial
  · split
    · trivial
    · exact raisesOnly_tableDivide s a b

theorem raisesOnly_fieldInvert (a : Nat) : RaisesOnly codes (fieldInvert s a) := by
  unfold fieldInvert
  split
  · trivial
  · exact raisesOnly_tableInvert s a

theorem raisesOnly_findGenerator (f : Poly) (m : Nat) : RaisesOnly codes (findGenerator f m) := by
  unfold findGenerator
  split <;> trivial

theorem raisesOnly_selectCanonical (m : Nat) : RaisesOnly codes (selectCanonical m) := by
  unfold selectCanonical
  split <;> trivial

end NoErrors

/-! ### The errors of phase 1 of CREATE (rule R170) -/

section Create
variable {codes : List ErrorCode}

theorem raisesOnly_chooseModulus (m : Nat) (modulus : Option Word) (fb : Bool)
    (htop : ErrorCode.polynomialDegreeMismatch ∈ codes) (hirr : ErrorCode.polynomialNotIrreducible ∈ codes) :
    RaisesOnly codes (chooseModulus m modulus fb) := by
  cases modulus with
  | none => exact raisesOnly_selectCanonical m
  | some a =>
    refine ends_bind (ends_checkTop htop) fun _ _ => ?_
    split
    · trivial
    · split
      · exact raisesOnly_selectCanonical m
      · exact hirr

theorem raisesOnly_resolveStrategy (s : State) (m : Nat) (hint : Hint) (h : ErrorCode.capacityExceeded ∈ codes) :
    RaisesOnly codes (resolveStrategy s m hint) := by
  rcases resolveStrategy_cases s m hint with ⟨_, _, hs⟩ | ⟨_, _, hs⟩ | ⟨_, hs⟩ <;> rw [hs]
  · exact h
  · trivial
  · trivial

theorem raisesOnly_createChecks (s : State) (m : Nat) (modulus : Option Word) (hint : Hint) (fb : Bool) :
    RaisesOnly (possibleErrors (.create m modulus hint fb)) (createChecks s m modulus hint fb) :=
  ends_bind (ends_checkDegree (by simp [StopsWithin, possibleErrors])) fun _ _ =>
    ends_bind (raisesOnly_chooseModulus m modulus fb (by simp [possibleErrors]) (by simp [possibleErrors])) fun _ _ =>
      ends_bind (raisesOnly_resolveStrategy s m hint (by simp [possibleErrors])) fun _ _ => trivial

end Create

/-! ### The errors of the other commands (rule R201) -/

/-- Every command but CREATE is one piece of pseudocode, which raises the errors of its row only: each check raises an
error that stands in the row, found by its place there. -/
theorem exists_raisesOnly {i : Instr} (hi : isCreate i = false) (s : State) :
    ∃ c, exec i s = deliver s c ∧ RaisesOnly (possibleErrors i) c := by
  cases i with
  | create => cases hi
  | padd | pclmul => exact ⟨.ok _, rfl, trivial⟩
  | preduce | pmodmul | pmodexp | isirred =>
    exact ⟨_, rfl, ends_bind (ends_checkDegree (.head _)) fun _ _ =>
      ends_bind (ends_checkTop (.tail _ (.head _))) fun _ _ => trivial⟩
  | selcanon m =>
    exact ⟨_, rfl, ends_bind (ends_checkDegree (.head _)) fun _ _ =>
      ends_bind (raisesOnly_selectCanonical m) fun _ _ => trivial⟩
  | findgen =>
    exact ⟨_, rfl, ends_bind (ends_requireContext (.head _)) fun _ _ =>
      ends_bind (raisesOnly_findGenerator _ _) fun _ _ => trivial⟩
  | rdalog =>
    exact ⟨_, rfl, ends_bind (ends_requireContext (.head _)) fun _ _ =>
      ends_bind (ends_requireTable (.tail _ (.head _))) fun _ _ =>
      ends_bind (ends_checkIndex (.tail _ (.tail _ (.head _)))) fun _ _ =>
      ends_bind (raisesOnly_tblRead s _ _) fun _ _ => trivial⟩
  | rdlog =>
    exact ⟨_, rfl, ends_bind (ends_requireContext (.head _)) fun _ _ =>
      ends_bind (ends_requireTable (.tail _ (.head _))) fun _ _ =>
      ends_bind (ends_checkLogOperand (.tail _ (.tail _ (.head _)))) fun _ _ =>
      ends_bind (raisesOnly_tblRead s _ _) fun _ _ => trivial⟩
  | fadd =>
    exact ⟨_, rfl, ends_bind (ends_requireContext (.head _)) fun _ _ =>
      ends_bind (ends_checkElement (.tail _ (.head _))) fun _ _ =>
      ends_bind (ends_checkElement (.tail _ (.head _))) fun _ _ => trivial⟩
  | fmul =>
    exact ⟨_, rfl, ends_bind (ends_requireContext (.head _)) fun _ _ =>
      ends_bind (ends_checkElement (.tail _ (.head _))) fun _ _ =>
      ends_bind (ends_checkElement (.tail _ (.head _))) fun _ _ =>
      ends_bind (raisesOnly_fieldMultiply s _ _) fun _ _ => trivial⟩
  | fdiv =>
    exact ⟨_, rfl, ends_bind (ends_requireContext (.tail _ (.head _))) fun _ _ =>
      ends_bind (ends_checkElement (.tail _ (.tail _ (.head _)))) fun _ _ =>
      ends_bind (ends_checkElement (.tail _ (.tail _ (.head _)))) fun _ _ =>
      ends_ite (fun _ => List.Mem.head _) fun _ =>
      ends_bind (raisesOnly_fieldDivide s _ _) fun _ _ => trivial⟩
  | finv =>
    exact ⟨_, rfl, ends_bind (ends_requireContext (.tail _ (.head _))) fun _ _ =>
      ends_bind (ends_checkElement (.tail _ (.tail _ (.head _)))) fun _ _ =>
      ends_ite (fun _ => List.Mem.head _) fun _ =>
      ends_bind (raisesOnly_fieldInvert s _) fun _ _ => trivial⟩
  | card | char | deg => exact ⟨_, rfl, ends_bind (ends_requireContext (.head _)) fun _ _ => trivial⟩

/-- A command that answers an error has raised it. -/
theorem deliver_err {s t : State} {c : Cmd Wide} {code : ErrorCode} (h : deliver s c = .next t)
    (hcode : t.respPort = s.respPort ++ [.err code]) : c = raise code := by
  rcases deliver_cases s c with ⟨r, _, hc⟩ | ⟨code', rfl, hc⟩ | ⟨f, _, hc⟩ <;> rw [hc] at h <;> cases h
  · simp at hcode
  · rw [Response.err.inj (respond_respPort_eq_append_iff.mp hcode)]

theorem mem_possibleErrors {i : Instr} {s t : State} {code : ErrorCode} (h : exec i s = .next t)
    (hcode : t.respPort = s.respPort ++ [.err code]) : code ∈ possibleErrors i := by
  cases hi : isCreate i with
  | false =>
    obtain ⟨c, hc, honly⟩ := exists_raisesOnly hi s
    exact raisesOnly_iff.mp honly code (deliver_err (hc ▸ h) hcode)
  | true =>
    cases i with
    | create m modulus hint fb =>
      rcases execCreate_next h with ⟨code', hc, rfl⟩ | ⟨f, _, rfl⟩ | ⟨f, g, _, _, rfl⟩
      · rw [Response.err.inj (respond_respPort_eq_append_iff.mp hcode)] at hc
        exact raisesOnly_iff.mp (raisesOnly_createChecks s m modulus hint fb) code hc
      · simp at hcode
      · simp at hcode
    | _ => cases hi

end Sys2Proof.Machine

namespace Sys2Proof.Proofs

open Sys2Proof Machine

/-- Settles O40, command by command, in the order of their checks. -/
theorem contextCommandErrorsInOrder : Obligations.ContextCommandErrorsInOrder := by
  refine fun s a b hs => ⟨fun hd => ?noTable, fun ht => exec_rdalog_outOfRange hs ht,
    fun ht => exec_rdlog_outOfRange hs ht, fun hab => ?ranges, exec_finv_outOfRange hs, exec_fdiv_zero hs,
    exec_finv_zero hs⟩
  case noTable =>
    simp only [List.forall_mem_cons]
    exact ⟨exec_rdalog_direct hs hd a, exec_rdlog_direct hs hd a, List.forall_mem_nil _⟩
  case ranges =>
    simp only [List.forall_mem_cons]
    have raises := deliver_checkElements_raise hs hab
    exact ⟨raises _, raises _, raises _, List.forall_mem_nil _⟩

/-- Settles O41, by the errors that each command's pseudocode can raise. -/
theorem commandsAnswerOnlyTheirErrors : Obligations.CommandsAnswerOnlyTheirErrors := fun _ _ _ _ => mem_possibleErrors

/-- Settles O31: the operands are Elements, and so is their xor. -/
theorem faddIsXorInEveryContext : Obligations.FaddIsXorInEveryContext := by
  intro a b s hs ha hb
  rw [← zext128_polyAdd_toNat, BitVec.toNat_xor]
  exact ⟨exec_fadd hs ha hb, Nat.xor_lt_two_pow ha hb⟩

/-- Settles O36: the Direct branches of the field functions. -/
theorem finvAndFdivInDirectContext : Obligations.FinvAndFdivInDirectContext := by
  intro a b s hs hd ha hb1 hb
  exact ⟨exec_finv_of_ok hs hb (by omega) (by simp [fieldInvert, hd]),
    exec_fdiv_of_ok hs ha hb (by omega) (by simp [fieldDivide, hd])⟩

end Sys2Proof.Proofs
end

section
/-! PROOF. The factor table (42_table.md rule R140): each listed number is prime, by trial division or, for the four
largest, by Lucas's tests, and divides 2^m − 1; and 2^m − 1 divides a power of their product, so it has no other prime
factor. -/

namespace Sys2Proof.Machine

/-! ### Primality -/

/-- No number from 2 to n + 1 divides p. -/
def trialDivided (p : Nat) : Nat → Bool
  | 0 => true
  | n + 1 => !(p % (n + 2)).beq 0 && trialDivided p n

/-- p has no divisor from 2 to below a power of 2 that lies above its square root. -/
def primeByTrial (p : Nat) : Bool := decide (2 ≤ p) && trialDivided p (2 ^ (Nat.log2 p / 2 + 1) - 2)

theorem not_dvd_of_trialDivided {p n d : Nat} (h : trialDivided p n = true) (h2 : 2 ≤ d) (hd : d < n + 2) :
    ¬ d ∣ p := by
  induction n with
  | zero => omega
  | succ n ih =>
    obtain ⟨hn, hrest⟩ := Bool.and_eq_true_iff.mp h
    rcases Nat.lt_succ_iff_lt_or_eq.mp hd with hlt | rfl
    · exact ih hrest hlt
    · intro hdvd
      simp [Nat.mod_eq_zero_of_dvd hdvd] at hn

theorem prime_of_primeByTrial {p : Nat} (h : primeByTrial p = true) : p.Prime := by
  obtain ⟨h2, htrial⟩ := Bool.and_eq_true_iff.mp h
  refine Nat.prime_def_le_sqrt.mpr ⟨of_decide_eq_true h2, fun d hd hsqrt => not_dvd_of_trialDivided htrial hd ?_⟩
  have hbound : p < 2 ^ (Nat.log2 p / 2 + 1) * 2 ^ (Nat.log2 p / 2 + 1) := by
    rw [← pow_add]
    exact lt_two_pow_of_le Nat.lt_log2_self (by omega)
  have := Nat.sqrt_lt.mpr hbound
  omega

/-- Lucas's test, with the prime factors of p − 1 as a list. -/
theorem prime_of_lucas {p : Nat} (a : ZMod p) (qs : List Nat) (hprime : ∀ q ∈ qs, q.Prime) (hqs : p - 1 ∣ qs.prod)
    (h1 : a ^ (p - 1) = 1) (hd : ∀ q ∈ qs, a ^ ((p - 1) / q) ≠ 1) : p.Prime := by
  refine lucas_primality p a h1 fun q hq hqp => hd q ?_
  obtain ⟨q', hq', hdvd⟩ := hq.prime.dvd_prod_iff.mp (hqp.trans hqs)
  rwa [(Nat.prime_dvd_prime_iff_eq hq (hprime q' hq')).mp hdvd]

theorem prime_of_trial_list {qs : List Nat} (h : qs.all primeByTrial = true) : ∀ q ∈ qs, q.Prime :=
  fun q hq => prime_of_primeByTrial (List.all_eq_true.mp h q hq)

theorem prime_3203431780337 : Nat.Prime 3203431780337 := by
  refine prime_of_lucas 3 [2, 2, 2, 2, 59, 421, 8060489] (prime_of_trial_list (by decide +kernel)) (by norm_num)
    (by reduce_mod_char) ?_
  simp only [List.forall_mem_cons]
  refine ⟨?_, ?_, ?_, ?_, ?_, ?_, ?_, List.forall_mem_nil _⟩ <;> reduce_mod_char <;> decide

theorem prime_4432676798593 : Nat.Prime 4432676798593 := by
  refine prime_of_lucas 5 [2, 2, 2, 2, 2, 2, 2, 3, 3, 7, 7, 43, 337, 5419] (prime_of_trial_list (by decide +kernel))
    (by norm_num) (by reduce_mod_char) ?_
  simp only [List.forall_mem_cons]
  refine ⟨?_, ?_, ?_, ?_, ?_, ?_, ?_, ?_, ?_, ?_, ?_, ?_, ?_, ?_, List.forall_mem_nil _⟩ <;> reduce_mod_char <;> decide

/-- 2^31 − 1 and 2^61 − 1, Mersenne primes. -/
theorem prime_2147483647 : Nat.Prime 2147483647 := lucas_lehmer_sufficiency 31 (by norm_num) (by norm_num)

theorem prime_2305843009213693951 : Nat.Prime 2305843009213693951 :=
  lucas_lehmer_sufficiency 61 (by norm_num) (by norm_num)

/-! ### The rows -/

/-- The listed primes that are too large for trial division. -/
def largePrimes : List Nat := [2147483647, 3203431780337, 4432676798593, 2305843009213693951]

theorem prime_of_mem_largePrimes : ∀ p ∈ largePrimes, p.Prime := by
  simp only [largePrimes, List.forall_mem_cons]
  exact ⟨prime_2147483647, prime_3203431780337, prime_4432676798593, prime_2305843009213693951, List.forall_mem_nil _⟩

/-- The numbers of row m divide 2^m − 1, and with their powers there is nothing left of it. -/
def rowDivides (m : Nat) : Bool :=
  (orderFactors m).all (fun p => (2 ^ m - 1) % p == 0) && (orderFactors m).prod ^ 6 % (2 ^ m - 1) == 0

theorem rowDivides_of_legal : ∀ m ∈ List.range' 1 63, rowDivides m = true := by decide +kernel

theorem primes_of_legal :
    ∀ m ∈ List.range' 1 63, ∀ p ∈ orderFactors m, p ∈ largePrimes ∨ primeByTrial p = true := by decide +kernel

theorem mem_orderFactors_iff {m : Nat} (h1 : 1 ≤ m) (h2 : m ≤ 63) {p : Nat} :
    p ∈ orderFactors m ↔ p.Prime ∧ p ∣ 2 ^ m - 1 := by
  have hm : m ∈ List.range' 1 63 := List.mem_range'_1.mpr (by omega)
  obtain ⟨hdvd, hpow⟩ := Bool.and_eq_true_iff.mp (rowDivides_of_legal m hm)
  have hprime (q : Nat) (hq : q ∈ orderFactors m) : q.Prime :=
    (primes_of_legal m hm q hq).elim (prime_of_mem_largePrimes q) prime_of_primeByTrial
  constructor
  · intro hp
    exact ⟨hprime p hp, Nat.dvd_of_mod_eq_zero (beq_iff_eq.mp (List.all_eq_true.mp hdvd p hp))⟩
  · rintro ⟨hp, hpm⟩
    have hprod : p ∣ (orderFactors m).prod ^ 6 := hpm.trans (Nat.dvd_of_mod_eq_zero (beq_iff_eq.mp hpow))
    obtain ⟨q, hq, hpq⟩ := hp.prime.dvd_prod_iff.mp (hp.dvd_of_dvd_pow hprod)
    rwa [(Nat.prime_dvd_prime_iff_eq hp (hprime q hq)).mp hpq]

end Sys2Proof.Machine

namespace Sys2Proof.Proofs

open Sys2Proof Machine

/-- Settles O22: the listed numbers are primes, and no other prime divides 2^m − 1. -/
theorem factorTableIsThePrimeFactors : Obligations.FactorTableIsThePrimeFactors :=
  fun _ h1 h2 _ => mem_orderFactors_iff h1 h2

end Sys2Proof.Proofs
end

section
/-! PROOF. Generators (42_table.md rules R141, R149): IsGenerator decides whether an element has order 2^m − 1 in
GF(2)[x]/(f); the powers of such an element are all the nonzero Elements; and where f is irreducible the quotient is a
finite field, whose units are cyclic, so the search finds one. -/

namespace Sys2Proof.Machine

/-- g has the order of the whole multiplicative group, 2^m − 1, modulo f. -/
def Generates (g f : Poly) (m : Nat) : Prop := orderOf (residue f g) = 2 ^ m - 1

section Modulus
variable {f m : Nat} (hf : deg f = (m : Int)) (hm : 1 ≤ m)
include hf hm

omit hf in
theorem one_lt_two_pow_degree : 1 < 2 ^ m := Nat.one_lt_two_pow (by omega)

/-- The quotient ring is not trivial. -/
theorem residue_one_ne_zero : residue f 1 ≠ residue f 0 := fun h =>
  one_ne_zero (eq_of_residue_eq hf (one_lt_two_pow_degree hm) (Nat.two_pow_pos m) h)

theorem modExponentiate_eq_one_iff (g e : Nat) : modExponentiate g e f m = 1 ↔ residue f g ^ e = 1 := by
  rw [← residue_modExponentiate hf, ← residue_one f]
  exact ⟨congrArg _, eq_of_residue_eq hf (modExponentiate_lt hf g e) (one_lt_two_pow_degree hm)⟩

/-- IsGenerator tests the order by the prime factors of 2^m − 1 (rule R141). -/
theorem isGenerator_iff (h2 : m ≤ 63) (g : Nat) : isGenerator g f m = true ↔ Generates g f m := by
  have hpos : 0 < 2 ^ m - 1 := Nat.sub_pos_of_lt (one_lt_two_pow_degree hm)
  simp only [isGenerator, Bool.and_eq_true, beq_iff_eq, List.all_eq_true, bne_iff_ne, ne_eq,
    modExponentiate_eq_one_iff hf hm, mem_orderFactors_iff hm h2, and_imp]
  constructor
  · rintro ⟨hpow, hprime⟩
    exact orderOf_eq_of_pow_and_pow_div_prime hpos hpow hprime
  · intro hg
    refine ⟨hg ▸ pow_orderOf_eq_one _, fun p hp hdvd => ?_⟩
    have hlt : (2 ^ m - 1) / p < orderOf (residue f g) := (Nat.div_lt_self hpos hp.one_lt).trans_eq hg.symm
    exact pow_ne_one_of_lt_orderOf (Nat.div_pos (Nat.le_of_dvd hpos hdvd) hp.pos).ne' hlt

/-! ### The powers of a generator -/

section Powers
variable {g : Nat} (hg : Generates g f m)
include hg

theorem modPower_ne_zero (e : Nat) : modPower g f m e ≠ 0 := by
  intro h0
  have hzero : residue f g ^ e = 0 := by rw [← residue_modPower hf, h0, residue_zero]
  have hone : (residue f g ^ e) ^ orderOf (residue f g) = 1 := by rw [pow_right_comm, pow_orderOf_eq_one, one_pow]
  have hpos : orderOf (residue f g) ≠ 0 := by
    have := one_lt_two_pow_degree hm
    rw [hg]
    omega
  rw [hzero, zero_pow hpos] at hone
  exact residue_one_ne_zero hf hm (by rw [residue_one, residue_zero, hone])

omit hm in
theorem modPower_injective {i j : Nat} (hi : i < 2 ^ m - 1) (hj : j < 2 ^ m - 1)
    (h : modPower g f m i = modPower g f m j) : i = j := by
  refine pow_injOn_Iio_orderOf (x := residue f g) (hg ▸ hi) (hg ▸ hj) ?_
  simp only [← residue_modPower hf, h]

/-- There are as many powers as nonzero Elements, so each of these is a power. -/
theorem exists_modPower_eq {a : Nat} (h1 : 1 ≤ a) (h2 : a < 2 ^ m) : ∃ e < 2 ^ m - 1, modPower g f m e = a := by
  have hsub : (Finset.range (2 ^ m - 1)).image (modPower g f m) ⊆ Finset.Ico 1 (2 ^ m) := by
    intro v hv
    obtain ⟨e, -, rfl⟩ := Finset.mem_image.mp hv
    exact Finset.mem_Ico.mpr ⟨Nat.one_le_iff_ne_zero.mpr (modPower_ne_zero hf hm hg e), modPower_lt hf hm g e⟩
  have hcard : ((Finset.range (2 ^ m - 1)).image (modPower g f m)).card = 2 ^ m - 1 := by
    rw [Finset.card_image_of_injOn, Finset.card_range]
    exact fun i hi j hj => modPower_injective hf hg (Finset.mem_range.mp hi) (Finset.mem_range.mp hj)
  have heq := Finset.eq_of_subset_of_card_le hsub (by rw [hcard, Nat.card_Ico])
  obtain ⟨e, he, hea⟩ := Finset.mem_image.mp (heq ▸ Finset.mem_Ico.mpr ⟨h1, h2⟩ : a ∈ _)
  exact ⟨e, Finset.mem_range.mp he, hea⟩

/-- The exponents count modulo the order. -/
theorem modPower_mod_order (e : Nat) : modPower g f m (e % (2 ^ m - 1)) = modPower g f m e :=
  eq_of_residue_eq hf (modPower_lt hf hm _ _) (modPower_lt hf hm _ _)
    (by rw [residue_modPower hf, residue_modPower hf, ← hg, pow_mod_orderOf])

/-- Fermat's little theorem for the nonzero Elements, which are the powers of g. -/
theorem residue_pow_order {a : Nat} (h1 : 1 ≤ a) (h2 : a < 2 ^ m) : residue f a ^ (2 ^ m - 1) = 1 := by
  obtain ⟨e, -, rfl⟩ := exists_modPower_eq hf hm hg h1 h2
  rw [residue_modPower hf, pow_right_comm, ← hg, pow_orderOf_eq_one, one_pow]

/-- Conversely, an Element whose powers are all the nonzero Elements is a generator. -/
theorem generates_of_forall_power {h : Nat} (h1 : 1 ≤ h) (h2 : h < 2 ^ m)
    (hall : ∀ a, 1 ≤ a → a < 2 ^ m → ∃ e, modPower h f m e = a) : Generates h f m := by
  have hpos : 0 < 2 ^ m - 1 := Nat.sub_pos_of_lt (one_lt_two_pow_degree hm)
  have hdvd : orderOf (residue f h) ∣ 2 ^ m - 1 := orderOf_dvd_of_pow_eq_one (residue_pow_order hf hm hg h1 h2)
  have hsub : Finset.Ico 1 (2 ^ m) ⊆ (Finset.range (orderOf (residue f h))).image (modPower h f m) := by
    intro a ha
    obtain ⟨ha1, ha2⟩ := Finset.mem_Ico.mp ha
    obtain ⟨e, rfl⟩ := hall a ha1 ha2
    refine Finset.mem_image.mpr ⟨e % orderOf (residue f h), Finset.mem_range.mpr (Nat.mod_lt _ ?_), ?_⟩
    · exact Nat.pos_of_dvd_of_pos hdvd hpos
    · apply eq_of_residue_eq hf (modPower_lt hf hm _ _) (modPower_lt hf hm _ _)
      rw [residue_modPower hf, residue_modPower hf, pow_mod_orderOf]
  have hcard := (Finset.card_le_card hsub).trans Finset.card_image_le
  rw [Nat.card_Ico, Finset.card_range] at hcard
  exact le_antisymm (Nat.le_of_dvd hpos hdvd) hcard

end Powers

/-! ### A generator exists -/

omit hm in
/-- The Elements are representatives of all the residues. -/
theorem exists_residue_eq (x : AdjoinRoot (toPoly f)) : ∃ a < 2 ^ m, residue f a = x := by
  obtain ⟨p, rfl⟩ := AdjoinRoot.mk_surjective x
  obtain ⟨n, rfl⟩ := toPoly_surjective p
  exact ⟨reduce n f m, reduce_lt hf n, residue_reduce hf n⟩

omit hm in
/-- The quotient ring has 2^m elements. -/
theorem natCard_residues : Nat.card (AdjoinRoot (toPoly f)) = 2 ^ m := by
  have hbij : Function.Bijective fun a : Fin (2 ^ m) => residue f a := by
    refine ⟨fun a b h => Fin.ext (eq_of_residue_eq hf a.isLt b.isLt h), fun x => ?_⟩
    obtain ⟨a, ha, rfl⟩ := exists_residue_eq hf x
    exact ⟨⟨a, ha⟩, rfl⟩
  rw [← Nat.card_eq_of_bijective _ hbij, Nat.card_fin]

/-- The units of a finite field are a cyclic group. -/
theorem exists_generates (hirr : isIrreducible f m = true) : ∃ g : Nat, g < 2 ^ m ∧ Generates g f m := by
  have hfact : Fact (Irreducible (toPoly f)) := ⟨(isIrreducible_iff hf hm).mp hirr⟩
  have hfinite : Finite (AdjoinRoot (toPoly f)) :=
    Nat.finite_of_card_ne_zero (natCard_residues hf ▸ (Nat.two_pow_pos m).ne')
  obtain ⟨u, hu⟩ := IsCyclic.exists_ofOrder_eq_natCard (α := (AdjoinRoot (toPoly f))ˣ)
  obtain ⟨g, hg, hres⟩ := exists_residue_eq hf (u : AdjoinRoot (toPoly f))
  refine ⟨g, hg, ?_⟩
  rw [Generates, hres, orderOf_units, hu, Nat.card_units, natCard_residues hf]

end Modulus

/-! ### The search (rule R141) -/

theorem findGeneratorFrom_eq_some {f m count g h : Nat} (hfound : findGeneratorFrom f m count g = some h) :
    (g ≤ h ∧ h < g + count) ∧ isGenerator h f m = true ∧ ∀ k, g ≤ k → k < h → isGenerator k f m = false := by
  induction count generalizing g with
  | zero => cases hfound
  | succ count ih =>
    rw [findGeneratorFrom] at hfound
    split at hfound
    · next hgen =>
      cases hfound
      exact ⟨by omega, hgen, fun k hk1 hk2 => by omega⟩
    · next hgen =>
      obtain ⟨hrange, hh, hbefore⟩ := ih hfound
      refine ⟨by omega, hh, fun k hk1 hk2 => ?_⟩
      rcases Nat.eq_or_lt_of_le hk1 with rfl | hlt
      · simpa using hgen
      · exact hbefore k hlt hk2

theorem findGeneratorFrom_eq_none {f m count g : Nat} (hnone : findGeneratorFrom f m count g = none) {k : Nat}
    (hk1 : g ≤ k) (hk2 : k < g + count) : isGenerator k f m = false := by
  induction count generalizing g with
  | zero => omega
  | succ count ih =>
    rw [findGeneratorFrom] at hnone
    split at hnone
    · cases hnone
    · next hgen =>
      rcases Nat.eq_or_lt_of_le hk1 with rfl | hlt
      · simpa using hgen
      · exact ih hnone hlt (by omega)

section Search
variable {f m : Nat} (hf : deg f = (m : Int)) (h1 : 1 ≤ m) (h2 : m ≤ 63)
include hf h1 h2

/-- What the search finds: the first generator from 2 on, or 1 where the group is trivial. -/
theorem searchGenerator_spec {g : Nat} (hg : searchGenerator f m = some g) :
    Generates g f m ∧ (1 ≤ g ∧ g < 2 ^ m) ∧ (m = 1 → g = 1) ∧ (2 ≤ m → 2 ≤ g)
      ∧ ∀ h, 2 ≤ h → h < g → ¬ Generates h f m := by
  rw [searchGenerator] at hg
  split at hg
  · next hm =>
    cases hg
    subst hm
    refine ⟨?_, by omega, fun _ => rfl, fun h => by omega, fun h _ _ => by omega⟩
    rw [Generates, residue_one, orderOf_one]
    rfl
  · obtain ⟨⟨hge, hlt⟩, hgen, hbefore⟩ := findGeneratorFrom_eq_some hg
    refine ⟨(isGenerator_iff hf h1 h2 g).mp hgen, by omega, fun h => by omega, fun _ => hge, fun h hh1 hh2 => ?_⟩
    rw [← isGenerator_iff hf h1 h2, hbefore h hh1 hh2]
    decide

/-- The search succeeds for every irreducible modulus of legal degree. -/
theorem exists_searchGenerator (hirr : isIrreducible f m = true) : ∃ g, searchGenerator f m = some g := by
  rw [searchGenerator]
  split
  · exact ⟨1, rfl⟩
  · next hm =>
    have hpow : 2 ^ 2 ≤ 2 ^ m := Nat.pow_le_pow_right Nat.two_pos (by omega)
    obtain ⟨g, hg, hgen⟩ := exists_generates hf h1 hirr
    have hne0 : g ≠ 0 := by
      rintro rfl
      exact modPower_ne_zero hf h1 hgen 1 (toPoly_injective (by simp [modPower, toPoly_modMultiply hf]))
    have hne1 : g ≠ 1 := by
      rintro rfl
      rw [Generates, residue_one, orderOf_one] at hgen
      omega
    cases hs : findGeneratorFrom f m (2 ^ m - 2) 2 with
    | some h => exact ⟨h, rfl⟩
    | none =>
      have hfalse := findGeneratorFrom_eq_none hs (k := g) (by omega) (by omega)
      rw [(isGenerator_iff hf h1 h2 g).mpr hgen] at hfalse
      cases hfalse

end Search

end Sys2Proof.Machine

namespace Sys2Proof.Proofs

open Sys2Proof Machine

/-- Settles O24: the search's result has order 2^m − 1, and an element with all nonzero Elements as powers has it. -/
theorem findgenAnswersTheFirstGenerator : Obligations.FindgenAnswersTheFirstGenerator := by
  rintro s ⟨-, hdescriptor, -⟩ hs
  obtain ⟨h1, hf, hirr⟩ := hdescriptor hs
  have h2 : s.m ≤ 63 := Nat.le_of_lt_succ s.m_lt
  obtain ⟨g, hsearch⟩ := exists_searchGenerator hf h1 h2 hirr
  obtain ⟨hgen, ⟨hg1, hg2⟩, hone, htwo, hfirst⟩ := searchGenerator_spec hf h1 h2 hsearch
  refine ⟨g, exec_findgen_of_search hs hsearch, hg1, hg2, hone, htwo, fun a => exists_modPower_eq hf h1 hgen,
    fun h hh1 hh2 => ?_⟩
  by_contra hall
  push Not at hall
  exact hfirst h hh1 hh2 (generates_of_forall_power hf h1 hgen (by omega) (by omega) hall)

end Sys2Proof.Proofs
end

section
/-! PROOF. The tables (10_state.md rules R28, R31 to R33, 42_table.md rules R142, R149 to R151, 43_context.md rules
R170, R171): Build stores the powers of the generator and their exponents, which are each other's inverse because the
powers are all the nonzero Elements, once each. -/

namespace Sys2Proof.Machine

/-! ### Build (rule R142) -/

section BuildFrom
variable (f m g : Nat)

/-- The loop is at `current = g^i` when it stores exponent i. -/
theorem buildFrom_succ (count i : Nat) (s : State) :
    buildFrom f m g (count + 1) i (modPower g f m i) s
      = buildFrom f m g count (i + 1) (modPower g f m (i + 1))
          ((s.tblWrite .antilog i (modPower g f m i)).tblWrite .log (modPower g f m i) i) := rfl

theorem buildFrom_antilog {count i j : Nat} (s : State) (hj : i ≤ j ∧ j < i + count) :
    (buildFrom f m g count i (modPower g f m i) s).antilog.lookup j = some (modPower g f m j) := by
  induction count generalizing i s with
  | zero => omega
  | succ count ih =>
    rw [buildFrom_succ]
    rcases Nat.eq_or_lt_of_le hj.1 with rfl | hlt
    · rw [buildFrom_antilog_other _ _ _ _ _ _ _ (by omega)]
      exact lookup_write_same ..
    · exact ih _ (by omega)

theorem buildFrom_log_other {count i a : Nat} (s : State)
    (ha : ∀ j, i ≤ j → j < i + count → modPower g f m j ≠ a) :
    (buildFrom f m g count i (modPower g f m i) s).log.lookup a = s.log.lookup a := by
  induction count generalizing i s with
  | zero => rfl
  | succ count ih =>
    rw [buildFrom_succ, ih _ fun j hij hj => ha j (by omega) (by omega)]
    exact lookup_write_other _ _ (ha i le_rfl (by omega)).symm

theorem buildFrom_log {count i j : Nat} (s : State) (hj : i ≤ j ∧ j < i + count)
    (hinj : ∀ k < i + count, modPower g f m k = modPower g f m j → k = j) :
    (buildFrom f m g count i (modPower g f m i) s).log.lookup (modPower g f m j) = some j := by
  induction count generalizing i s with
  | zero => omega
  | succ count ih =>
    rw [buildFrom_succ]
    rcases Nat.eq_or_lt_of_le hj.1 with rfl | hlt
    · have hother (k : Nat) (hik : i + 1 ≤ k) (hk : k < i + 1 + count) : modPower g f m k ≠ modPower g f m i :=
        fun h => absurd (hinj k (by omega) h) (by omega)
      rw [buildFrom_log_other f m g _ hother]
      exact lookup_write_same ..
    · exact ih _ (by omega) fun k hk => hinj k (by omega)

end BuildFrom

section Build
variable {f m g : Nat} (hf : deg f = (m : Int)) (hm : 1 ≤ m) (hg : Generates g f m) (s : State)

theorem build_antilog (f g : Nat) {j : Nat} (hj : j < 2 ^ m - 1) :
    (build f m g s).antilog.lookup j = some (modPower g f m j) :=
  buildFrom_antilog f m g s (by omega)

theorem build_antilog_other (f g : Nat) {j : Nat} (hj : 2 ^ m - 1 ≤ j) :
    (build f m g s).antilog.lookup j = s.antilog.lookup j :=
  buildFrom_antilog_other f m g _ _ _ s (by omega)

include hf hg

theorem build_log {j : Nat} (hj : j < 2 ^ m - 1) : (build f m g s).log.lookup (modPower g f m j) = some j :=
  buildFrom_log f m g s (by omega) fun _ hk => modPower_injective hf hg (by omega) hj

include hm

theorem build_log_other {a : Nat} (ha : a = 0 ∨ 2 ^ m ≤ a) : (build f m g s).log.lookup a = s.log.lookup a := by
  refine buildFrom_log_other f m g s fun j _ _ hja => ?_
  rcases ha with rfl | hle
  · exact modPower_ne_zero hf hm hg j hja
  · exact (modPower_lt hf hm g j).not_ge (hja ▸ hle)

end Build

/-! ### The contexts that the invariant allows -/

/-- What the invariant says of a context (rules R25, R26). -/
structure State.Context (s : State) : Prop where
  valid : s.ctxValid = true
  one_le_m : 1 ≤ s.m
  deg_modulus : deg s.modulus = (s.m : Int)
  irreducible : isIrreducible s.modulus s.m = true

/-- What the invariant says of a Table context, in one form: a generator, its powers, and their exponents. -/
structure State.TableContext (s : State) : Prop extends s.Context where
  table : s.ctxStrat = .table
  search : searchGenerator s.modulus s.m = some s.ctxGen.toNat
  generates : Generates s.ctxGen.toNat s.modulus s.m
  antilog_lookup : ∀ i < s.order, s.antilog.lookup i = some (modPower s.ctxGen.toNat s.modulus s.m i)
  log_lookup : ∀ i < s.order, s.log.lookup (modPower s.ctxGen.toNat s.modulus s.m i) = some i

theorem State.m_le (s : State) : s.m ≤ 63 := Nat.le_of_lt_succ s.m_lt

theorem context_of_inv {s : State} (h : s.Inv) (hs : s.ctxValid = true) : s.Context := by
  obtain ⟨-, hdescriptor, -⟩ := h
  obtain ⟨h1, hf, hirr⟩ := hdescriptor hs
  exact ⟨hs, h1, hf, hirr⟩

theorem tableContext_of_inv {s : State} (h : s.Inv) (hs : s.ctxValid = true) (ht : s.ctxStrat = .table) :
    s.TableContext := by
  have hc := context_of_inv h hs
  obtain ⟨-, -, htables⟩ := h
  obtain ⟨-, ⟨hsearch, -⟩, ⟨-, hpowers⟩, -, -, hlog, -⟩ := htables hs ht
  obtain ⟨hgen, -⟩ := searchGenerator_spec hc.deg_modulus hc.one_le_m s.m_le hsearch
  have hantilog (i : Nat) (hi : i < s.order) :
      s.antilog.lookup i = some (modPower s.ctxGen.toNat s.modulus s.m i) := by
    rw [hpowers i hi, modExponentiate_eq_modPower hc.deg_modulus hc.one_le_m]
  refine ⟨hc, ht, hsearch, hgen, hantilog, fun i hi => ?_⟩
  rw [← hlog i hi, hantilog i hi]
  rfl

namespace State.TableContext
variable {s : State} (h : s.TableContext)
include h

/-- Every nonzero Element has its exponent in LOG (rule R33 (e)). -/
theorem exists_log {a : Nat} (h1 : 1 ≤ a) (h2 : a < 2 ^ s.m) :
    ∃ i < s.order, s.log.lookup a = some i ∧ modPower s.ctxGen.toNat s.modulus s.m i = a := by
  obtain ⟨i, hi, rfl⟩ := exists_modPower_eq h.deg_modulus h.one_le_m h.generates h1 h2
  exact ⟨i, hi, h.log_lookup i hi, rfl⟩

theorem order_pos : 0 < s.order := Nat.sub_pos_of_lt (one_lt_two_pow_degree h.one_le_m)

/-- The generator is the entry at exponent 1, or at 0 where the order is 1 (rule R28). -/
theorem antilog_lookup_one : s.antilog.lookup (1 % s.order) = some s.ctxGen.toNat := by
  obtain ⟨-, ⟨-, hlt⟩, -⟩ := searchGenerator_spec h.deg_modulus h.one_le_m s.m_le h.search
  have hone : modPower s.ctxGen.toNat s.modulus s.m 1 = s.ctxGen.toNat :=
    eq_of_residue_eq h.deg_modulus (modPower_lt h.deg_modulus h.one_le_m _ _) hlt
      (by rw [residue_modPower h.deg_modulus, pow_one])
  rw [h.antilog_lookup _ (Nat.mod_lt _ h.order_pos), State.order,
    modPower_mod_order h.deg_modulus h.one_le_m h.generates, hone]

/-- The one form gives all that rules R28 and R31 to R33 say. -/
theorem tablesOk (hceiling : s.m ≤ s.tableCeiling.val) : s.tablesOk := by
  have hpos := modPower_ne_zero h.deg_modulus h.one_le_m h.generates
  have hlt := modPower_lt h.deg_modulus h.one_le_m s.ctxGen.toNat
  refine ⟨hceiling, ⟨h.search, h.antilog_lookup_one⟩, ⟨?_, fun i hi => ?_⟩, ⟨fun i hi => ?_, fun a h2 h1 => ?_⟩,
    fun i hi j hj hij => ?_, fun i hi => ?_, fun a h2 h1 => ?_⟩
  · exact h.antilog_lookup 0 h.order_pos
  · rw [h.antilog_lookup i hi, modExponentiate_eq_modPower h.deg_modulus h.one_le_m]
  · rw [h.antilog_lookup i hi]
    exact decide_eq_true ⟨Nat.one_le_iff_ne_zero.mpr (hpos i), hlt i⟩
  · obtain ⟨i, hi, hlog, -⟩ := h.exists_log h1 h2
    rw [hlog]
    exact decide_eq_true hi
  · rw [h.antilog_lookup i hi, h.antilog_lookup j hj] at hij
    exact modPower_injective h.deg_modulus h.generates hi hj (Option.some.inj hij)
  · rw [h.antilog_lookup i hi]
    exact h.log_lookup i hi
  · obtain ⟨i, hi, hlog, rfl⟩ := h.exists_log h1 h2
    rw [hlog]
    exact h.antilog_lookup i hi

end State.TableContext

/-! ### CREATE of a Table context (rule R170) -/

/-- The state that phase 2 leaves for the strategy Table. -/
abbrev State.tableState (s : State) (f m g : Nat) : State :=
  ((build f m g s).setGenerator g).setDescriptor f m .table

theorem createCommit_table {s : State} {f : Poly} {m : Nat} {g : Poly} (hg : searchGenerator f m = some g) :
    createCommit s f m .table = .ok (s.tableState f m g) := by
  rcases createCommit_cases s f m .table with ⟨h, _⟩ | ⟨g', _, hg', hc⟩ | ⟨_, hg', _⟩
  · cases h
  · rw [hc, Option.some.inj (hg'.symm.trans hg)]
  · simp [hg] at hg'

theorem tableState_tableContext {f m g : Nat} (h1 : 1 ≤ m) (h2 : m ≤ 63) (hf : deg f = (m : Int))
    (hirr : isIrreducible f m = true) (hg : searchGenerator f m = some g) (s : State) :
    (s.tableState f m g).TableContext := by
  obtain ⟨hm, hmod⟩ := setDescriptor_values h2 hf ((build f m g s).setGenerator g) .table
  obtain ⟨hgen, ⟨-, hlt⟩, -⟩ := searchGenerator_spec hf h1 h2 hg
  have hreg : (s.tableState f m g).ctxGen.toNat = g :=
    Nat.mod_eq_of_lt (lt_two_pow_of_le hlt h2)
  have horder : (s.tableState f m g).order = 2 ^ m - 1 := by rw [State.order, hm]
  refine ⟨⟨rfl, ?_, ?_, ?_⟩, rfl, ?_, ?_, ?_, ?_⟩
  · rwa [hm]
  · rwa [hm, hmod]
  · rwa [hm, hmod]
  · rwa [hm, hmod, hreg]
  · rwa [hm, hmod, hreg]
  · rw [hm, hmod, hreg, horder]
    exact fun i => build_antilog s f g
  · rw [hm, hmod, hreg, horder]
    exact fun i => build_log hf hgen s

theorem tableState_tablesOk {f m g : Nat} (h1 : 1 ≤ m) (h2 : m ≤ 63) (hf : deg f = (m : Int))
    (hirr : isIrreducible f m = true) (hg : searchGenerator f m = some g) {s : State}
    (hceiling : m ≤ s.tableCeiling.val) : (s.tableState f m g).tablesOk := by
  refine (tableState_tableContext h1 h2 hf hirr hg s).tablesOk ?_
  rw [(setDescriptor_values h2 hf _ _).1]
  simpa using hceiling

/-- CREATE keeps the whole invariant: a Direct context has no tables to speak of, and a Table context has just been
built. -/
theorem create_inv {m : Nat} {modulus : Option Word} {hint : Hint} {fb : Bool} {s t : State} (hs : s.Inv)
    (h : exec (.create m modulus hint fb) s = .next t) : t.Inv := by
  have hcanonical : t.tablesCanonical := create_tablesCanonical hs.1 h
  rcases create_next_cases h with ⟨code, rfl⟩ | ⟨f, ⟨h1, h2⟩, ⟨hf, hirr⟩, rfl | ⟨g, hceiling, hg, rfl⟩⟩
  · exact hs
  · exact ⟨hcanonical, fun _ => setDescriptor_descriptorOk h1 h2 hf hirr s .direct, fun _ => nofun⟩
  · exact ⟨hcanonical, fun _ => setDescriptor_descriptorOk h1 h2 hf hirr ((build f m g s).setGenerator g) .table,
      fun _ _ => tableState_tablesOk h1 h2 hf hirr hg hceiling⟩

end Sys2Proof.Machine

namespace Sys2Proof.Proofs

open Sys2Proof Machine

/-- Settles O54: CREATE alone writes what the invariant speaks of, and reset ends the context. -/
theorem stepKeepsTheInvariant : Obligations.StepKeepsTheInvariant := fun _ _ =>
  step_preserves (P := State.Inv) (fun _ _ hs => hs) (fun _ _ hs => hs)
    (fun _ _ => ⟨⟨wf_ofList _, wf_ofList _⟩, nofun, nofun⟩) (fun _ _ _ _ _ _ => create_inv)

/-- Settles O29: the search finds a generator for every irreducible modulus, and Build stores its powers. -/
theorem createTableBuildsTheTables : Obligations.CreateTableBuildsTheTables := by
  intro m modulus hint fb f s h1 h2 hf hhint hceiling
  obtain ⟨hdeg, hirr⟩ := choosesModulus_spec h1 hf
  obtain ⟨g, hg⟩ := exists_searchGenerator hdeg h1 h2 hirr
  have hstrategy : resolveStrategy s m hint = .ok .table := by
    rcases resolveStrategy_cases s m hint with ⟨_, hlt, _⟩ | ⟨_, _, hs⟩ | ⟨rfl | ⟨_, hlt⟩, _⟩
    · omega
    · exact hs
    · exact absurd rfl hhint
    · omega
  obtain ⟨hm, hmod⟩ := setDescriptor_values h2 hdeg ((build f m g s).setGenerator g) .table
  refine ⟨(s.tableState f m g).respond (.ok 0#128), ?_, rfl, hm, hmod, rfl,
    setDescriptor_descriptorOk h1 h2 hdeg hirr ((build f m g s).setGenerator g) .table,
    tableState_tablesOk h1 h2 hdeg hirr hg hceiling, by simp⟩
  rw [exec_create_of_strategy h1 h2 hf hstrategy, createCommit_table hg, ok_bind, conclude_pure]
  rfl

/-- Settles O30, for each of CREATE's three answers. -/
theorem createFrame : Obligations.CreateFrame := by
  intro m modulus hint fb s t h
  obtain ⟨hport, hceiling, hcount, -⟩ := exec_next_frame h
  refine ⟨hport, hceiling, hcount, ?_⟩
  rcases create_next_cases h with ⟨code, rfl⟩ | ⟨f, ⟨h1, h2⟩, ⟨hf, hirr⟩, rfl | ⟨g, -, hg, rfl⟩⟩
  · exact .inl ⟨code, rfl⟩
  · exact .inr ⟨rfl, rfl, fun _ => ⟨rfl, rfl, rfl⟩, nofun⟩
  · obtain ⟨hgen, -⟩ := searchGenerator_spec hf h1 h2 hg
    exact .inr ⟨by simp, rfl, nofun, fun _ =>
      ⟨fun _ => build_antilog_other s f g, fun _ => build_log_other hf h1 hgen s⟩⟩

/-- Settles O23: CTX_GEN is what the search finds, and its place in ANTILOG is 1 mod order. -/
theorem findgenAnswersCtxGenInTableContext : Obligations.FindgenAnswersCtxGenInTableContext := by
  intro s h hs ht
  have hc := tableContext_of_inv h hs ht
  refine ⟨?_, hc.antilog_lookup_one⟩
  rw [exec_findgen_of_search hs hc.search, zext128, BitVec.ofNat_toNat]

/-- Settles O25: the entry at i is the i-th power. -/
theorem rdalogAnswersThePower : Obligations.RdalogAnswersThePower := by
  intro s i h hs ht
  have hc := tableContext_of_inv h hs ht
  exact ⟨fun hi => exec_rdalog_of_lookup hs ht hi (hc.antilog_lookup _ hi), fun hi => exec_rdalog_outOfRange hs ht hi⟩

/-- Settles O26: every nonzero Element has its exponent in LOG. -/
theorem rdlogAnswersTheExponent : Obligations.RdlogAnswersTheExponent := by
  refine fun s a h hs ht => ⟨fun h1 h2 => ?_, fun ha => exec_rdlog_outOfRange hs ht ha⟩
  obtain ⟨i, hi, hlog, hpower⟩ := (tableContext_of_inv h hs ht).exists_log h1 h2
  exact ⟨i, hi, exec_rdlog_of_lookup hs ht h1 h2 hlog, hpower⟩

end Sys2Proof.Proofs
end

section
/-! PROOF. Field arithmetic (43_context.md rules R174 to R179, R184, 42_table.md rules R143 to R145, R148): the extended
Euclid loop gives the inverse below 2^m, and under either strategy a field command answers the product, the inverse or
the quotient in GF(2)[x]/(CTX_MOD). -/

namespace Sys2Proof.Machine

/-! ### The bounds of the extended Euclid loop (rule R178) -/

/-- The degree of a quotient is the difference of the degrees. -/
theorem polyDivMod_fst_lt {a b : Nat} (hb : b ≠ 0) (hle : Nat.log2 b ≤ Nat.log2 a) :
    (polyDivMod a b).1 < 2 ^ (Nat.log2 a - Nat.log2 b + 1) := by
  by_cases hq : (polyDivMod a b).1 = 0
  · rw [hq]
    exact Nat.two_pow_pos _
  · have hr : (polyDivMod a b).2 < 2 ^ (Nat.log2 a + 1) :=
      lt_two_pow_of_le (polyDivMod_snd_lt a hb) (by omega)
    have hprod : clmul (polyDivMod a b).1 b = a ^^^ (polyDivMod a b).2 := by
      rw [← Nat.xor_xor_cancel_right (clmul (polyDivMod a b).1 b) (polyDivMod a b).2, ← eq_clmul_xor_polyDivMod a hb]
    have hlt : deg (clmul (polyDivMod a b).1 b) < ((Nat.log2 a + 1 : Nat) : Int) := by
      rw [hprod, deg_lt_iff]
      exact Nat.xor_lt_two_pow Nat.lt_log2_self hr
    rw [deg_clmul hq hb, deg_of_ne_zero hb] at hlt
    rw [← deg_lt_iff]
    omega

/-- The cofactors grow as the remainders fall: their degrees stay at or below m − deg(r0). -/
theorem polyInvLoop_lt {m : Nat} (steps r0 r1 s0 s1 : Nat) (hm : Nat.log2 r0 ≤ m) (hr : r1 < 2 ^ Nat.log2 r0)
    (h0 : s0 < 2 ^ (m - Nat.log2 r0)) (h1 : s1 < 2 ^ (m - Nat.log2 r0 + 1)) :
    polyInvLoop steps r0 r1 s0 s1 < 2 ^ m := by
  have hs0 : s0 < 2 ^ m := lt_two_pow_of_le h0 (by omega)
  induction steps generalizing r0 r1 s0 s1 with
  | zero => exact hs0
  | succ n ih =>
    rw [polyInvLoop]
    split
    · exact hs0
    · next hr1 =>
      have hlog : Nat.log2 r1 < Nat.log2 r0 := (Nat.log2_lt hr1).mpr hr
      have hnext : s1 < 2 ^ (m - Nat.log2 r1) := lt_two_pow_of_le h1 (by omega)
      have hprod : clmul (polyDivMod r0 r1).1 s1 < 2 ^ (m - Nat.log2 r1 + 1) :=
        lt_two_pow_of_le (clmul_lt (polyDivMod_fst_lt hr1 hlog.le) h1) (by omega)
      exact ih _ _ _ _ (by omega) (polyDivMod_snd_lt r0 hr1) hnext
        (Nat.xor_lt_two_pow (lt_two_pow_of_le h0 (by omega)) hprod) (lt_two_pow_of_le hnext (by omega))

section Modulus
variable {f m : Nat} (hf : deg f = (m : Int)) (hm : 1 ≤ m) (hirr : isIrreducible f m = true)
include hf

theorem polyInv_lt {a : Nat} (ha : a < 2 ^ m) : polyInv a f < 2 ^ m := by
  obtain ⟨-, hlog⟩ := deg_eq_iff.mp hf
  exact polyInvLoop_lt _ f a 0 1 hlog.le (hlog ▸ ha) (Nat.two_pow_pos _) (Nat.one_lt_two_pow (by omega))

include hm hirr

/-- An irreducible modulus has no factor in common with a nonzero Element. -/
theorem polyGcd_eq_one {a : Nat} (h1 : 1 ≤ a) (h2 : a < 2 ^ m) : polyGcd f a = 1 := by
  obtain ⟨hdvdf, hdvda⟩ := (dvd_polyGcd f a _).mp dvd_rfl
  rcases ((isIrreducible_iff hf hm).mp hirr).dvd_iff.mp hdvdf with hunit | hassoc
  · exact isUnit_toPoly_iff.mp hunit
  · have hzero : residue f a = residue f 0 := by
      rw [residue_eq_iff, toPoly_zero, sub_zero]
      exact hassoc.dvd.trans hdvda
    have := eq_of_residue_eq hf h2 (Nat.two_pow_pos m) hzero
    omega

/-- `PolyInv(a, f)` is the inverse of a nonzero Element (rule R178). -/
theorem residue_polyInv_mul {a : Nat} (h1 : 1 ≤ a) (h2 : a < 2 ^ m) : residue f (polyInv a f) * residue f a = 1 := by
  rw [residue_polyInv, polyGcd_eq_one hf hm hirr h1 h2, residue_one]

/-- The one Element whose product with b is a: division by b is multiplication by its inverse. -/
theorem eq_modMultiply_polyInv_iff {a b r : Nat} (hr : r < 2 ^ m) (h1 : 1 ≤ b) (h2 : b < 2 ^ m) :
    r = modMultiply a (polyInv b f) f m ↔ residue f r * residue f b = residue f a := by
  have hinv := residue_polyInv_mul hf hm hirr h1 h2
  constructor
  · rintro rfl
    rw [residue_modMultiply hf, mul_assoc, hinv, mul_one]
  · intro h
    refine eq_of_residue_eq hf hr (modMultiply_lt hf _ _) ?_
    rw [residue_modMultiply hf, ← h, mul_assoc, mul_comm (residue f b), hinv, mul_one]

/-- The one Element whose product with a is 1. -/
theorem eq_polyInv_iff {a r : Nat} (hr : r < 2 ^ m) (h1 : 1 ≤ a) (h2 : a < 2 ^ m) :
    r = polyInv a f ↔ residue f r * residue f a = 1 := by
  have hone : modMultiply 1 (polyInv a f) f m = polyInv a f := by
    rw [modMultiply_comm, modMultiply_one, reduce_of_lt hf (polyInv_lt hf h2)]
  rw [← residue_one, ← eq_modMultiply_polyInv_iff hf hm hirr hr h1 h2, hone]

theorem one_le_polyInv {a : Nat} (h1 : 1 ≤ a) (h2 : a < 2 ^ m) : 1 ≤ polyInv a f := by
  rw [Nat.one_le_iff_ne_zero]
  intro h0
  have hinv := residue_polyInv_mul hf hm hirr h1 h2
  rw [h0, residue_zero, zero_mul] at hinv
  exact residue_one_ne_zero hf hm (by rw [residue_one, residue_zero, hinv])

theorem polyInv_polyInv {a : Nat} (h1 : 1 ≤ a) (h2 : a < 2 ^ m) : polyInv (polyInv a f) f = a := by
  symm
  rw [eq_polyInv_iff hf hm hirr h2 (one_le_polyInv hf hm hirr h1 h2) (polyInv_lt hf h2), mul_comm]
  exact residue_polyInv_mul hf hm hirr h1 h2

omit hirr in
theorem modMultiply_eq_one_iff {a b : Nat} : modMultiply a b f m = 1 ↔ residue f a * residue f b = 1 := by
  rw [← residue_modMultiply hf, ← residue_one f]
  exact ⟨congrArg _, eq_of_residue_eq hf (modMultiply_lt hf a b) (one_lt_two_pow_degree hm)⟩

theorem modMultiply_polyInv {a : Nat} (h1 : 1 ≤ a) (h2 : a < 2 ^ m) : modMultiply a (polyInv a f) f m = 1 := by
  rw [modMultiply_eq_one_iff hf hm, mul_comm, residue_polyInv_mul hf hm hirr h1 h2]

omit hm hirr in
theorem modMultiply_eq_iff {a b c : Nat} (hc : c < 2 ^ m) :
    modMultiply a b f m = c ↔ residue f a * residue f b = residue f c := by
  rw [← residue_modMultiply hf]
  exact ⟨congrArg _, eq_of_residue_eq hf (modMultiply_lt hf a b) hc⟩

end Modulus

/-! ### The table arithmetic (rules R143 to R145) -/

namespace State.TableContext
variable {s : State} (h : s.TableContext)
include h

theorem tblRead_antilog (e : Nat) :
    tblRead s .antilog (e % s.order) = .ok (modPower s.ctxGen.toNat s.modulus s.m e) := by
  have he : e % s.order < s.order := Nat.mod_lt _ h.order_pos
  refine tblRead_ok h.valid h.table (decide_eq_true he) ((h.antilog_lookup _ he).trans ?_)
  rw [State.order, modPower_mod_order h.deg_modulus h.one_le_m h.generates]

theorem exists_tblRead_log {a : Nat} (h1 : 1 ≤ a) (h2 : a < 2 ^ s.m) :
    ∃ i < s.order, tblRead s .log a = .ok i ∧ residue s.modulus s.ctxGen.toNat ^ i = residue s.modulus a := by
  obtain ⟨i, hi, hlog, rfl⟩ := h.exists_log h1 h2
  exact ⟨i, hi, tblRead_ok h.valid h.table (by simp [TableId.inRange, h1, h2]) hlog,
    (residue_modPower h.deg_modulus _ i).symm⟩

theorem residue_gen_pow_order : residue s.modulus s.ctxGen.toNat ^ s.order = 1 := by
  rw [State.order, ← h.generates, pow_orderOf_eq_one]

/-- A product adds exponents. -/
theorem tableMultiply_eq {a b : Nat} (ha : 1 ≤ a ∧ a < 2 ^ s.m) (hb : 1 ≤ b ∧ b < 2 ^ s.m) :
    tableMultiply s a b = .ok (modMultiply a b s.modulus s.m) := by
  obtain ⟨i, -, hi, hgi⟩ := h.exists_tblRead_log ha.1 ha.2
  obtain ⟨j, -, hj, hgj⟩ := h.exists_tblRead_log hb.1 hb.2
  rw [tableMultiply, hi, ok_bind, hj, ok_bind, h.tblRead_antilog]
  refine congrArg Except.ok (Eq.symm ?_)
  rw [modMultiply_eq_iff h.deg_modulus (modPower_lt h.deg_modulus h.one_le_m _ _), residue_modPower h.deg_modulus,
    pow_add, hgi, hgj]

/-- An inverse has the opposite exponent. -/
theorem tableInvert_eq {a : Nat} (ha : 1 ≤ a ∧ a < 2 ^ s.m) : tableInvert s a = .ok (polyInv a s.modulus) := by
  obtain ⟨i, hlt, hi, hgi⟩ := h.exists_tblRead_log ha.1 ha.2
  rw [tableInvert, hi, ok_bind, h.tblRead_antilog]
  refine congrArg Except.ok ?_
  rw [eq_polyInv_iff h.deg_modulus h.one_le_m h.irreducible (modPower_lt h.deg_modulus h.one_le_m _ _) ha.1 ha.2,
    residue_modPower h.deg_modulus, ← hgi, ← pow_add, Nat.sub_add_cancel hlt.le, h.residue_gen_pow_order]

/-- A quotient subtracts exponents. -/
theorem tableDivide_eq {a b : Nat} (ha : 1 ≤ a ∧ a < 2 ^ s.m) (hb : 1 ≤ b ∧ b < 2 ^ s.m) :
    tableDivide s a b = .ok (modMultiply a (polyInv b s.modulus) s.modulus s.m) := by
  obtain ⟨i, -, hi, hgi⟩ := h.exists_tblRead_log ha.1 ha.2
  obtain ⟨j, hlt, hj, hgj⟩ := h.exists_tblRead_log hb.1 hb.2
  rw [tableDivide, hi, ok_bind, hj, ok_bind, h.tblRead_antilog]
  refine congrArg Except.ok ?_
  rw [eq_modMultiply_polyInv_iff h.deg_modulus h.one_le_m h.irreducible (modPower_lt h.deg_modulus h.one_le_m _ _) hb.1
    hb.2, residue_modPower h.deg_modulus, ← hgj, ← pow_add, Nat.sub_add_cancel (by omega), pow_add,
    h.residue_gen_pow_order, mul_one, hgi]

end State.TableContext

/-! ### The field functions, alike under both strategies (rules R148, R174, R176, R178) -/

theorem modMultiply_zero_left (b : Nat) {f m : Nat} (hf : deg f = (m : Int)) : modMultiply 0 b f m = 0 := by
  rw [modMultiply_eq_iff hf (Nat.two_pow_pos m), residue_zero, zero_mul]

section Field
variable {s : State} (h : s.Inv) (hs : s.ctxValid = true) {a b : Nat}
include h hs

theorem fieldMultiply_eq (ha : a < 2 ^ s.m) (hb : b < 2 ^ s.m) :
    fieldMultiply s a b = .ok (modMultiply a b s.modulus s.m) := by
  have hf := (context_of_inv h hs).deg_modulus
  cases ht : s.ctxStrat with
  | direct => simp [fieldMultiply, ht, pure, Except.pure]
  | table =>
    by_cases h0 : a = 0 ∨ b = 0
    · have hzero : modMultiply a b s.modulus s.m = 0 := by
        rcases h0 with rfl | rfl
        · exact modMultiply_zero_left b hf
        · rw [modMultiply_comm, modMultiply_zero_left a hf]
      simp [fieldMultiply, ht, h0, hzero, pure, Except.pure]
    · have hmul := (tableContext_of_inv h hs ht).tableMultiply_eq (a := a) (b := b) (by omega) (by omega)
      simp [fieldMultiply, ht, h0, hmul]

theorem fieldInvert_eq (h1 : 1 ≤ a) (h2 : a < 2 ^ s.m) : fieldInvert s a = .ok (polyInv a s.modulus) := by
  cases ht : s.ctxStrat with
  | direct => simp [fieldInvert, ht, pure, Except.pure]
  | table => simp [fieldInvert, ht, (tableContext_of_inv h hs ht).tableInvert_eq ⟨h1, h2⟩]

theorem fieldDivide_eq (ha : a < 2 ^ s.m) (h1 : 1 ≤ b) (h2 : b < 2 ^ s.m) :
    fieldDivide s a b = .ok (modMultiply a (polyInv b s.modulus) s.modulus s.m) := by
  have hf := (context_of_inv h hs).deg_modulus
  cases ht : s.ctxStrat with
  | direct => simp [fieldDivide, ht, pure, Except.pure]
  | table =>
    by_cases h0 : a = 0
    · simp [fieldDivide, ht, h0, modMultiply_zero_left _ hf, pure, Except.pure]
    · have hdiv := (tableContext_of_inv h hs ht).tableDivide_eq (a := a) ⟨by omega, ha⟩ ⟨h1, h2⟩
      simp [fieldDivide, ht, h0, hdiv]

end Field

end Sys2Proof.Machine

namespace Sys2Proof.Proofs

open Sys2Proof Machine

/-- Settles O32: the answer is `ModMultiply`, the remainder of the product. -/
theorem fmulInDirectContext : Obligations.FmulInDirectContext := by
  rintro a b s hs hd ⟨-, hf, -⟩ ha hb
  obtain ⟨q, hq⟩ := exists_eq_clmul_xor_reduce hf (clmul a.toNat b.toNat)
  exact ⟨q, modMultiply a.toNat b.toNat s.modulus s.m,
    exec_fmul_of_ok hs ha hb (by simp [fieldMultiply, hd, pure, Except.pure]), modMultiply_lt hf _ _, hq⟩

/-- Settles O33: the sum of two exponents is the exponent of the product. -/
theorem fmulInTableContextIsTheDirectProduct : Obligations.FmulInTableContextIsTheDirectProduct :=
  fun _ _ _ h hs _ ha hb => exec_fmul_of_ok hs ha hb (fieldMultiply_eq h hs ha hb)

/-- Settles O34: under either strategy the answer is PolyInv, the one inverse. -/
theorem finvAnswersTheInverse : Obligations.FinvAnswersTheInverse := by
  intro a s h hs h1 h2
  obtain ⟨-, hm, hf, hirr⟩ := context_of_inv h hs
  refine ⟨polyInv a.toNat s.modulus, exec_finv_of_ok hs h2 (by omega) (fieldInvert_eq h hs h1 h2),
    one_le_polyInv hf hm hirr h1 h2, polyInv_lt hf h2, modMultiply_polyInv hf hm hirr h1 h2, fun x hx hax => ?_⟩
  rwa [eq_polyInv_iff hf hm hirr hx h1 h2, ← modMultiply_eq_one_iff hf hm, modMultiply_comm]

/-- Settles O35: under either strategy the answer is the dividend times the divisor's inverse, the one quotient. -/
theorem fdivAnswersTheQuotient : Obligations.FdivAnswersTheQuotient := by
  intro a b s h hs ha h1 h2
  obtain ⟨-, hm, hf, hirr⟩ := context_of_inv h hs
  have hlt := modMultiply_lt hf a.toNat (polyInv b.toNat s.modulus)
  refine ⟨_, exec_fdiv_of_ok hs ha h2 (by omega) (fieldDivide_eq h hs ha h1 h2), hlt, ?_, fun h0 => ?_,
    fun x hx hxb => ?_⟩
  · rw [modMultiply_eq_iff hf ha, ← eq_modMultiply_polyInv_iff hf hm hirr hlt h1 h2]
  · rw [h0, modMultiply_zero_left _ hf]
  · rwa [eq_modMultiply_polyInv_iff hf hm hirr hx h1 h2, ← modMultiply_eq_iff hf ha]

/-- Settles O37, with ModMultiply and PolyInv for the product and the inverse under either strategy. -/
theorem fieldLawsHoldInEveryContext : Obligations.FieldLawsHoldInEveryContext := by
  intro s h hs
  obtain ⟨-, hm, hf, hirr⟩ := context_of_inv h hs
  refine ⟨fun a b => modMultiply a b s.modulus s.m, fun a b => modMultiply a (polyInv b s.modulus) s.modulus s.m,
    fun a => polyInv a s.modulus, fun a b ha hb => ⟨?mul, fun hb0 => ?div, fun hb0 => ?inv, ?divZero, ?invZero⟩,
    fun a b c ha hb hc => ⟨?closed, ?one, ?comm, ?assoc, ?distrib, fun ha0 => ?inverse, fun hb0 => ?quotient⟩⟩
  case mul => exact exec_fmul_of_ok hs ha hb (fieldMultiply_eq h hs ha hb)
  case div => exact exec_fdiv_of_ok hs ha hb hb0 (fieldDivide_eq h hs ha (Nat.one_le_iff_ne_zero.mpr hb0) hb)
  case inv => exact exec_finv_of_ok hs hb hb0 (fieldInvert_eq h hs (Nat.one_le_iff_ne_zero.mpr hb0) hb)
  case divZero => exact exec_fdiv_zero hs ha
  case invZero => exact exec_finv_zero hs
  case closed => exact modMultiply_lt hf a b
  case one => exact (modMultiply_one a _ _).trans (reduce_of_lt hf ha)
  case comm => exact modMultiply_comm a b _ _
  case assoc => exact modMultiply_assoc hf a b c
  case distrib => exact modMultiply_xor hf a b c
  case inverse =>
    have ha1 : 1 ≤ a := Nat.one_le_iff_ne_zero.mpr ha0
    exact ⟨polyInv_lt hf ha, modMultiply_polyInv hf hm hirr ha1 ha, polyInv_polyInv hf hm hirr ha1 ha⟩
  case quotient =>
    have hlt := modMultiply_lt hf a (polyInv b s.modulus)
    refine ⟨hlt, ?_⟩
    rw [modMultiply_eq_iff hf ha,
      ← eq_modMultiply_polyInv_iff hf hm hirr hlt (Nat.one_le_iff_ne_zero.mpr hb0) hb]

end Sys2Proof.Proofs
end

section
/-! PROOF. From a state that meets the invariant no command reaches a fault of the model, and no command but PCLMUL
answers more than 64 bits (30_encoding.md rule R64, 93_implementation_defined.md U2, U7). -/

namespace Sys2Proof.Machine

/-- An error is raised, so no fault of the model is reached. -/
def NoFault : Stop → Prop
  | .raise _ => True
  | .fault _ => False

theorem conclude_next_of_noFault {P : State × Wide → Prop} {c : Cmd (State × Wide)} (h : Ends P NoFault c) (s : State) :
    ∃ t, conclude s c = .next t := by
  rcases cmd_cases c with ⟨⟨t, r⟩, rfl⟩ | ⟨code, rfl⟩ | ⟨f, rfl⟩
  · exact ⟨_, rfl⟩
  · exact ⟨_, rfl⟩
  · exact h.elim

theorem deliver_next_of_noFault {P : Wide → Prop} {c : Cmd Wide} (h : Ends P NoFault c) (s : State) :
    ∃ t, deliver s c = .next t := by
  rcases cmd_cases c with ⟨r, rfl⟩ | ⟨code, rfl⟩ | ⟨f, rfl⟩
  · exact ⟨_, rfl⟩
  · exact ⟨_, rfl⟩
  · exact h.elim

/-! ### CREATE and SELCANON, from any state -/

theorem ends_selectCanonical {m : Nat} (hm : 1 ≤ m ∧ m ≤ 63) :
    Ends (fun f => deg f = (m : Int) ∧ isIrreducible f m = true) NoFault (selectCanonical m) := by
  obtain ⟨f, hf⟩ := exists_isCanonical hm.1 hm.2
  rw [selectCanonical_ok_iff.mpr hf]
  exact choosesModulus_spec (modulus := none) (fb := false) hm.1 hf

theorem ends_chooseModulus {m : Nat} (hm : 1 ≤ m ∧ m ≤ 63) (modulus : Option Word) (fb : Bool) :
    Ends (fun f => deg f = (m : Int) ∧ isIrreducible f m = true) NoFault (chooseModulus m modulus fb) := by
  cases modulus with
  | none => exact ends_selectCanonical hm
  | some a =>
    refine ends_bind (ends_checkTop trivial) fun _ ha => ?_
    split
    · next hirr => exact ⟨ha, hirr⟩
    · split
      · exact ends_selectCanonical hm
      · trivial

theorem ends_resolveStrategy (s : State) (m : Nat) (hint : Hint) :
    Ends (fun _ => True) NoFault (resolveStrategy s m hint) := by
  rcases resolveStrategy_cases s m hint with ⟨_, _, hs⟩ | ⟨_, _, hs⟩ | ⟨_, hs⟩ <;> rw [hs] <;> trivial

theorem ends_createCommit {m f : Nat} (hm : 1 ≤ m ∧ m ≤ 63) (hf : deg f = (m : Int) ∧ isIrreducible f m = true)
    (s : State) (strategy : Strategy) : Ends (fun _ => True) NoFault (createCommit s f m strategy) := by
  cases strategy with
  | direct => trivial
  | table =>
    obtain ⟨g, hg⟩ := exists_searchGenerator hf.1 hm.1 hm.2 hf.2
    rw [createCommit_table hg]
    trivial

/-- CREATE answers in every state: the checks of phase 1 leave a modulus that has a generator. -/
theorem create_next (m : Nat) (modulus : Option Word) (hint : Hint) (fb : Bool) (s : State) :
    ∃ t, exec (.create m modulus hint fb) s = .next t := by
  refine conclude_next_of_noFault (P := fun _ => True) ?_ s
  refine ends_bind (P := fun c => (1 ≤ m ∧ m ≤ 63) ∧ deg c.1 = (m : Int) ∧ isIrreducible c.1 m = true) ?checks
    fun c ⟨hm, hf⟩ => ends_bind (ends_createCommit hm hf s c.2) fun _ _ => trivial
  exact ends_bind (ends_checkDegree trivial) fun _ hm => ends_bind (ends_chooseModulus hm modulus fb) fun _ hf =>
    ends_bind (ends_resolveStrategy s m hint) fun _ _ => ⟨hm, hf⟩

/-! ### The other commands, from a state that meets the invariant -/

/-- The result fits the low word R_LO. -/
def FitsWord (r : Wide) : Prop := r.toNat < 2 ^ 64

theorem fitsWord_zext128 {n : Nat} (hn : n < 2 ^ 64) : FitsWord (zext128 n) :=
  (Nat.mod_le _ _).trans_lt hn

theorem fitsWord_of_lt {n m : Nat} (hn : n < 2 ^ m) (hm : m ≤ 63) : FitsWord (zext128 n) :=
  fitsWord_zext128 (lt_two_pow_of_le hn (by omega))

section Context
variable {s : State} (h : s.Inv) (hs : s.ctxValid = true)
include h hs

theorem ends_findGenerator : Ends (fun g => g < 2 ^ s.m) NoFault (findGenerator s.modulus s.m) := by
  obtain ⟨-, hm, hf, hirr⟩ := context_of_inv h hs
  obtain ⟨g, hg⟩ := exists_searchGenerator hf hm s.m_le hirr
  obtain ⟨-, ⟨-, hlt⟩, -⟩ := searchGenerator_spec hf hm s.m_le hg
  rw [findGenerator, hg]
  exact hlt

theorem ends_tblRead_antilog (ht : s.ctxStrat = .table) {i : Nat} (hi : i < s.order) :
    Ends (fun v => v < 2 ^ s.m) NoFault (tblRead s .antilog i) := by
  have hc := tableContext_of_inv h hs ht
  rw [← Nat.mod_eq_of_lt hi, hc.tblRead_antilog]
  exact modPower_lt hc.deg_modulus hc.one_le_m _ _

theorem ends_tblRead_log (ht : s.ctxStrat = .table) {a : Nat} (ha : 1 ≤ a ∧ a < 2 ^ s.m) :
    Ends (fun i => i < s.order) NoFault (tblRead s .log a) := by
  obtain ⟨i, hi, hread, -⟩ := (tableContext_of_inv h hs ht).exists_tblRead_log ha.1 ha.2
  rw [hread]
  exact hi

variable {a b : Nat}

theorem ends_fieldMultiply (ha : a < 2 ^ s.m) (hb : b < 2 ^ s.m) :
    Ends (fun r => r < 2 ^ s.m) NoFault (fieldMultiply s a b) := by
  rw [fieldMultiply_eq h hs ha hb]
  exact modMultiply_lt (context_of_inv h hs).deg_modulus a b

theorem ends_fieldInvert (ha : a < 2 ^ s.m) (h0 : a ≠ 0) :
    Ends (fun r => r < 2 ^ s.m) NoFault (fieldInvert s a) := by
  rw [fieldInvert_eq h hs (Nat.one_le_iff_ne_zero.mpr h0) ha]
  exact polyInv_lt (context_of_inv h hs).deg_modulus ha

theorem ends_fieldDivide (ha : a < 2 ^ s.m) (hb : b < 2 ^ s.m) (h0 : b ≠ 0) :
    Ends (fun r => r < 2 ^ s.m) NoFault (fieldDivide s a b) := by
  rw [fieldDivide_eq h hs ha (Nat.one_le_iff_ne_zero.mpr h0) hb]
  exact modMultiply_lt (context_of_inv h hs).deg_modulus a _

end Context

/-- Every command but CREATE is one piece of pseudocode that reaches no fault, and whose result fits a word unless it is
PCLMUL's. -/
theorem exists_noFault {i : Instr} (hi : isCreate i = false) {s : State} (h : s.Inv) :
    ∃ c, exec i s = deliver s c ∧ Ends (fun r => (∀ a b, i ≠ .pclmul a b) → FitsWord r) NoFault c := by
  have small {n : Nat} (hn : n < 2 ^ s.m) : FitsWord (zext128 n) := fitsWord_of_lt hn s.m_le
  cases i with
  | create => cases hi
  | padd a b => exact ⟨.ok _, rfl, fun _ => fitsWord_zext128 (Nat.xor_lt_two_pow a.isLt b.isLt)⟩
  | pclmul a b => exact ⟨.ok _, rfl, fun hne => absurd rfl (hne a b)⟩
  | preduce =>
    exact ⟨_, rfl, ends_bind (ends_checkDegree trivial) fun _ hm => ends_bind (ends_checkTop trivial) fun _ hf =>
      ends_pure fun _ => fitsWord_of_lt (reduce_lt hf _) hm.2⟩
  | pmodmul =>
    exact ⟨_, rfl, ends_bind (ends_checkDegree trivial) fun _ hm => ends_bind (ends_checkTop trivial) fun _ hf =>
      ends_pure fun _ => fitsWord_of_lt (modMultiply_lt hf _ _) hm.2⟩
  | pmodexp =>
    exact ⟨_, rfl, ends_bind (ends_checkDegree trivial) fun _ hm => ends_bind (ends_checkTop trivial) fun _ hf =>
      ends_pure fun _ => fitsWord_of_lt (modExponentiate_lt hf _ _) hm.2⟩
  | isirred poly m =>
    refine ⟨_, rfl, ends_bind (ends_checkDegree trivial) fun _ _ => ends_bind (ends_checkTop trivial) fun _ _ =>
      ends_pure fun _ => fitsWord_zext128 ?_⟩
    split <;> decide
  | selcanon m =>
    exact ⟨_, rfl, ends_bind (ends_checkDegree trivial) fun _ hm => ends_bind (ends_selectCanonical hm) fun _ hf =>
      ends_pure fun _ => fitsWord_zext128 (lt_two_pow_of_deg hf.1 (by omega))⟩
  | findgen =>
    exact ⟨_, rfl, ends_bind (ends_requireContext trivial) fun _ hs => ends_bind (ends_findGenerator h hs) fun _ hg =>
      ends_pure fun _ => small hg⟩
  | rdalog =>
    exact ⟨_, rfl, ends_bind (ends_requireContext trivial) fun _ hs => ends_bind (ends_requireTable trivial) fun _ ht =>
      ends_bind (ends_checkIndex trivial) fun _ hi => ends_bind (ends_tblRead_antilog h hs ht hi) fun _ hv =>
      ends_pure fun _ => small hv⟩
  | rdlog =>
    exact ⟨_, rfl, ends_bind (ends_requireContext trivial) fun _ hs => ends_bind (ends_requireTable trivial) fun _ ht =>
      ends_bind (ends_checkLogOperand trivial) fun _ ha => ends_bind (ends_tblRead_log h hs ht ha) fun _ hv =>
      ends_pure fun _ => small (hv.trans_le (Nat.sub_le _ _))⟩
  | fadd =>
    exact ⟨_, rfl, ends_bind (ends_requireContext trivial) fun _ _ => ends_bind (ends_checkElement trivial) fun _ ha =>
      ends_bind (ends_checkElement trivial) fun _ hb => ends_pure fun _ => small (Nat.xor_lt_two_pow ha hb)⟩
  | fmul =>
    exact ⟨_, rfl, ends_bind (ends_requireContext trivial) fun _ hs => ends_bind (ends_checkElement trivial) fun _ ha =>
      ends_bind (ends_checkElement trivial) fun _ hb => ends_bind (ends_fieldMultiply h hs ha hb) fun _ hr =>
      ends_pure fun _ => small hr⟩
  | fdiv =>
    exact ⟨_, rfl, ends_bind (ends_requireContext trivial) fun _ hs => ends_bind (ends_checkElement trivial) fun _ ha =>
      ends_bind (ends_checkElement trivial) fun _ hb => ends_ite (fun _ => trivial) fun h0 =>
      ends_bind (ends_fieldDivide h hs ha hb h0) fun _ hr => ends_pure fun _ => small hr⟩
  | finv =>
    exact ⟨_, rfl, ends_bind (ends_requireContext trivial) fun _ hs => ends_bind (ends_checkElement trivial) fun _ ha =>
      ends_ite (fun _ => trivial) fun h0 => ends_bind (ends_fieldInvert h hs ha h0) fun _ hr =>
      ends_pure fun _ => small hr⟩
  | card =>
    exact ⟨_, rfl, ends_bind (ends_requireContext trivial) fun _ _ =>
      ends_pure fun _ => fitsWord_zext128 (Nat.pow_lt_pow_right Nat.one_lt_two s.m_lt)⟩
  | char =>
    exact ⟨_, rfl, ends_bind (ends_requireContext trivial) fun _ _ =>
      ends_pure fun _ => fitsWord_zext128 (by decide)⟩
  | deg =>
    exact ⟨_, rfl, ends_bind (ends_requireContext trivial) fun _ _ => ends_pure fun _ => small Nat.lt_two_pow_self⟩

/-- From a state that meets the invariant every command answers. -/
theorem exec_next_of_inv (i : Instr) {s : State} (h : s.Inv) : ∃ t, exec i s = .next t := by
  cases hi : isCreate i with
  | false =>
    obtain ⟨c, hc, hends⟩ := exists_noFault hi h
    exact hc ▸ deliver_next_of_noFault hends s
  | true =>
    cases i with
    | create m modulus hint fb => exact create_next m modulus hint fb s
    | _ => cases hi

/-- A command that answers Ok has come to its result. -/
theorem deliver_ok_result {s t : State} {c : Cmd Wide} {r : Wide} (h : deliver s c = .next t)
    (hr : t.respPort = s.respPort ++ [.ok r]) : c = .ok r := by
  rcases deliver_cases s c with ⟨r', rfl, hc⟩ | ⟨code, _, hc⟩ | ⟨f, _, hc⟩ <;> rw [hc] at h <;> cases h
  · rw [Response.ok.inj (respond_respPort_eq_append_iff.mp hr)]
  · simp at hr

theorem fitsWord_of_exec {i : Instr} {s t : State} {r : Wide} (hs : s.Inv) (h : exec i s = .next t)
    (hr : t.respPort = s.respPort ++ [.ok r]) (hne : ∀ a b, i ≠ .pclmul a b) : FitsWord r := by
  cases hi : isCreate i with
  | false =>
    obtain ⟨c, hc, hends⟩ := exists_noFault hi hs
    have hok : c = .ok r := deliver_ok_result (hc ▸ h) hr
    rw [hok] at hends
    exact hends hne
  | true =>
    rcases exec_next_of_isCreate hi h with ⟨code, rfl⟩ | ⟨-, hzero⟩
    · simp at hr
    · obtain rfl : 0#128 = r := by simpa using hzero.symm.trans hr
      exact Nat.two_pow_pos 64

theorem rHi_of_fitsWord {r : Wide} (h : FitsWord r) : (Response.ok r).toPacket.rHi = 0#64 := by
  apply BitVec.eq_of_toNat_eq
  show (r.extractLsb' 64 64).toNat = 0
  rw [BitVec.extractLsb'_toNat, Nat.shiftRight_eq_div_pow, Nat.div_eq_of_lt h, Nat.zero_mod]

end Sys2Proof.Machine

namespace Sys2Proof.Proofs

open Sys2Proof Machine

/-- Settles O44: an Element, an exponent, a modulus and 2^CTX_M fit a word. -/
theorem onlyPclmulNeedsTheHighWord : Obligations.OnlyPclmulNeedsTheHighWord :=
  fun _ _ _ _ hs h hr hne => rHi_of_fitsWord (fitsWord_of_exec hs h hr hne)

/-- Settles O55: no command faults, since the searches end and a Table context has every entry in use written. -/
theorem stepNeverStops : Obligations.StepNeverStops := by
  intro s hs
  rcases step_cases s with ⟨_, hk⟩ | ⟨rest, _, hk⟩ | ⟨p, rest, e, _, _, hk⟩ | ⟨p, rest, i, _, _, hk⟩ <;> rw [hk]
  · exact ⟨_, rfl⟩
  · exact ⟨_, rfl⟩
  · exact ⟨_, rfl⟩
  · exact exec_next_of_inv i (s := { s with cmdPort := rest }) hs

end Sys2Proof.Proofs
end

section
/-! PROOF. What a command depends on (00_scope.md rule R13, 10_state.md rules R35, R36): two states that agree on what
can be read give every command one answer, and go on to agree. -/

namespace Sys2Proof.Machine

/-! ### The commands that write nothing -/

section SameReadable
variable {s t : State} (h : s.sameReadable t)
include h

theorem requireContext_congr : requireContext s = requireContext t := by
  obtain ⟨hv, -, -⟩ := h
  rw [requireContext, requireContext, hv]

variable (hs : s.ctxValid = true)
include hs

theorem m_congr : s.m = t.m := by
  obtain ⟨-, -, hctx⟩ := h
  obtain ⟨hm, -, -, -⟩ := hctx hs
  rw [State.m, State.m, hm]

theorem modulus_congr : s.modulus = t.modulus := by
  obtain ⟨-, -, hctx⟩ := h
  obtain ⟨-, hmod, -, -⟩ := hctx hs
  rw [State.modulus, State.modulus, hmod]

theorem ctxStrat_congr : s.ctxStrat = t.ctxStrat := by
  obtain ⟨-, -, hctx⟩ := h
  obtain ⟨-, -, hstrat, -⟩ := hctx hs
  exact hstrat

theorem order_congr : s.order = t.order := by rw [State.order, State.order, m_congr h hs]

theorem requireTable_congr : requireTable s = requireTable t := by
  rw [requireTable, requireTable, ctxStrat_congr h hs]

theorem checkElement_congr (v : Nat) : checkElement s v = checkElement t v := by
  rw [checkElement, checkElement, m_congr h hs]

theorem checkIndex_congr (i : Nat) : checkIndex s i = checkIndex t i := by
  rw [checkIndex, checkIndex, order_congr h hs]

theorem checkLogOperand_congr (a : Nat) : checkLogOperand s a = checkLogOperand t a := by
  rw [checkLogOperand, checkLogOperand, m_congr h hs]

/-- A read is of an entry in use, or it faults in both. -/
theorem tblRead_congr (T : TableId) (i : Nat) : tblRead s T i = tblRead t T i := by
  have hpre : (s.ctxValid = true ∧ s.ctxStrat = .table ∧ T.inRange s.m i = true)
      ↔ (t.ctxValid = true ∧ t.ctxStrat = .table ∧ T.inRange t.m i = true) := by
    rw [h.1, ctxStrat_congr h hs, m_congr h hs]
  by_cases hs' : s.ctxValid = true ∧ s.ctxStrat = .table ∧ T.inRange s.m i = true
  · have hlookup : (s.table T).lookup i = (t.table T).lookup i := by
      obtain ⟨-, htable, hrange⟩ := hs'
      obtain ⟨-, -, hctx⟩ := h
      obtain ⟨-, -, -, htables⟩ := hctx hs
      obtain ⟨-, hantilog, hlog⟩ := htables htable
      cases T with
      | antilog => exact hantilog i (of_decide_eq_true hrange)
      | log =>
        obtain ⟨h1, h2⟩ : 1 ≤ i ∧ i < 2 ^ s.m := by simpa [TableId.inRange] using hrange
        exact hlog i h2 h1
    rw [tblRead, tblRead, if_pos hs', if_pos (hpre.mp hs'), hlookup]
  · rw [tblRead, tblRead, if_neg hs', if_neg (mt hpre.mpr hs')]

theorem fieldMultiply_congr (a b : Nat) : fieldMultiply s a b = fieldMultiply t a b := by
  simp only [fieldMultiply, tableMultiply, ctxStrat_congr h hs, modulus_congr h hs, m_congr h hs, order_congr h hs,
    tblRead_congr h hs]

theorem fieldInvert_congr (a : Nat) : fieldInvert s a = fieldInvert t a := by
  simp only [fieldInvert, tableInvert, ctxStrat_congr h hs, modulus_congr h hs, order_congr h hs, tblRead_congr h hs]

theorem fieldDivide_congr (a b : Nat) : fieldDivide s a b = fieldDivide t a b := by
  simp only [fieldDivide, tableDivide, ctxStrat_congr h hs, modulus_congr h hs, m_congr h hs, order_congr h hs,
    tblRead_congr h hs]

end SameReadable

/-- A context-free command is the same pseudocode in every state (rule R233). -/
theorem exists_deliver_of_isContextFree {i : Instr} (hi : isContextFree i = true) :
    ∃ c, ∀ s, exec i s = deliver s c := by
  cases i with
  | padd | pclmul => exact ⟨.ok _, fun _ => rfl⟩
  | preduce | pmodmul | pmodexp | isirred | selcanon => exact ⟨_, fun _ => rfl⟩
  | _ => cases hi

theorem needsContext_of_not_isContextFree {i : Instr} (hc : isCreate i = false) (hi : isContextFree i = false) :
    needsContext i = true := by
  cases i with
  | findgen | rdalog | rdlog | fadd | fmul | fdiv | finv | card | char | deg => rfl
  | create => cases hc
  | _ => cases hi

/-- Two states that agree on what can be read give a command that is no CREATE one piece of pseudocode. -/
theorem exists_deliver_congr {i : Instr} (hi : isCreate i = false) {s t : State} (h : s.sameReadable t) :
    ∃ c, exec i s = deliver s c ∧ exec i t = deliver t c := by
  cases hfree : isContextFree i with
  | true =>
    obtain ⟨c, hc⟩ := exists_deliver_of_isContextFree hfree
    exact ⟨c, hc s, hc t⟩
  | false =>
    have hneeds := needsContext_of_not_isContextFree hi hfree
    cases hs : s.ctxValid with
    | false => exact ⟨raise .noContext, exec_noContext hneeds hs, exec_noContext hneeds (h.1 ▸ hs)⟩
    | true =>
      have hcontext := requireContext_congr h
      have helement := checkElement_congr h hs
      cases i with
      | findgen =>
        refine ⟨_, rfl, ?_⟩
        simp only [exec, execFindgen, hcontext, modulus_congr h hs, m_congr h hs]
      | rdalog i =>
        refine ⟨_, rfl, ?_⟩
        simp only [exec, execRdalog, hcontext, requireTable_congr h hs, checkIndex_congr h hs, tblRead_congr h hs]
      | rdlog a =>
        refine ⟨_, rfl, ?_⟩
        simp only [exec, execRdlog, hcontext, requireTable_congr h hs, checkLogOperand_congr h hs, tblRead_congr h hs]
      | fadd a b =>
        refine ⟨_, rfl, ?_⟩
        simp only [exec, execFadd, hcontext, helement]
      | fmul a b =>
        refine ⟨_, rfl, ?_⟩
        simp only [exec, execFmul, hcontext, helement, fieldMultiply_congr h hs]
      | fdiv a b =>
        refine ⟨_, rfl, ?_⟩
        simp only [exec, execFdiv, hcontext, helement, fieldDivide_congr h hs]
      | finv a =>
        refine ⟨_, rfl, ?_⟩
        simp only [exec, execFinv, hcontext, helement, fieldInvert_congr h hs]
      | card =>
        refine ⟨_, rfl, ?_⟩
        simp only [exec, execCard, hcontext, m_congr h hs]
      | char =>
        refine ⟨_, rfl, ?_⟩
        simp only [exec, execChar, hcontext]
      | deg =>
        refine ⟨_, rfl, ?_⟩
        simp only [exec, execDeg, hcontext, m_congr h hs]
      | _ => cases hneeds

/-- So both answer the same response, and nothing else changes. -/
theorem exec_respond_congr {i : Instr} (hi : isCreate i = false) {s t s' : State} (h : s.sameReadable t)
    (hs' : exec i s = .next s') : ∃ r, s' = s.respond r ∧ exec i t = .next (t.respond r) := by
  obtain ⟨c, hcs, hct⟩ := exists_deliver_congr hi h
  rw [hcs] at hs'
  rcases deliver_cases s c with ⟨r, rfl, hd⟩ | ⟨code, rfl, hd⟩ | ⟨f, _, hd⟩ <;> rw [hd] at hs' <;> cases hs'
  · exact ⟨.ok r, rfl, hct⟩
  · exact ⟨.err code, rfl, hct⟩

/-! ### CREATE, which reads the ceiling alone -/

theorem createChecks_congr {s t : State} (h : s.tableCeiling = t.tableCeiling) (m : Nat) (modulus : Option Word)
    (hint : Hint) (fb : Bool) : createChecks s m modulus hint fb = createChecks t m modulus hint fb := by
  have havailable : tableAvailable s m = tableAvailable t m := by rw [tableAvailable, tableAvailable, h]
  have hstrategy : resolveStrategy s m hint = resolveStrategy t m hint := by
    cases hint <;> simp only [resolveStrategy, havailable]
  simp only [createChecks, hstrategy]

/-- CREATE writes the same into two states with one ceiling. -/
theorem create_congr {m : Nat} {modulus : Option Word} {hint : Hint} {fb : Bool} {s t s' : State}
    (h : s.tableCeiling = t.tableCeiling) (hs' : exec (.create m modulus hint fb) s = .next s') :
    (∃ code, s' = s.respond (.err code) ∧ exec (.create m modulus hint fb) t = .next (t.respond (.err code)))
      ∨ ∃ f, (1 ≤ m ∧ m ≤ 63) ∧ deg f = (m : Int)
        ∧ ((s' = (s.setDescriptor f m .direct).respond (.ok 0#128)
            ∧ exec (.create m modulus hint fb) t = .next ((t.setDescriptor f m .direct).respond (.ok 0#128)))
          ∨ ∃ g, searchGenerator f m = some g ∧ s' = (s.tableState f m g).respond (.ok 0#128)
            ∧ exec (.create m modulus hint fb) t = .next ((t.tableState f m g).respond (.ok 0#128))) := by
  have ht : exec (.create m modulus hint fb) t = execCreate m modulus hint fb t := rfl
  rw [ht, execCreate_eq, ← createChecks_congr h]
  rcases execCreate_next hs' with ⟨code, hc, rfl⟩ | ⟨f, hc, rfl⟩ | ⟨f, g, hc, hg, rfl⟩
  · rw [hc]
    exact .inl ⟨code, rfl, rfl⟩
  · obtain ⟨hm, hf, -⟩ := createChecks_ok hc
    rw [hc]
    exact .inr ⟨f, hm, (choosesModulus_spec hm.1 hf).1, .inl ⟨rfl, rfl⟩⟩
  · obtain ⟨hm, hf, -⟩ := createChecks_ok hc
    rw [hc, ok_bind, createCommit_table hg]
    exact .inr ⟨f, hm, (choosesModulus_spec hm.1 hf).1, .inr ⟨g, hg, rfl, rfl⟩⟩

/-- Build writes the same into the same memories. -/
theorem buildFrom_congr (f m g : Nat) {count i current : Nat} {s t : State} (ha : s.antilog = t.antilog)
    (hl : s.log = t.log) :
    (buildFrom f m g count i current s).antilog = (buildFrom f m g count i current t).antilog
      ∧ (buildFrom f m g count i current s).log = (buildFrom f m g count i current t).log := by
  induction count generalizing i current s t with
  | zero => exact ⟨ha, hl⟩
  | succ count ih =>
    exact ih (s := (s.tblWrite .antilog i current).tblWrite .log current i)
      (t := (t.tblWrite .antilog i current).tblWrite .log current i) (congrArg (·.write i current) ha)
      (congrArg (·.write current i) hl)

/-- Build writes every entry in use, so what was in the memories before is not seen. -/
theorem tableState_sameEntries {f m g : Nat} (h1 : 1 ≤ m) (h2 : m ≤ 63) (hf : deg f = (m : Int))
    (hg : searchGenerator f m = some g) (s t : State) : (s.tableState f m g).sameEntries (t.tableState f m g) := by
  obtain ⟨hm, -⟩ := setDescriptor_values h2 hf ((build f m g s).setGenerator g) .table
  obtain ⟨hgen, -⟩ := searchGenerator_spec hf h1 h2 hg
  rw [State.sameEntries, State.order, hm]
  refine ⟨fun i hi => (build_antilog s f g hi).trans (build_antilog t f g hi).symm, fun a ha2 ha1 => ?_⟩
  obtain ⟨i, hi, rfl⟩ := exists_modPower_eq hf h1 hgen ha1 ha2
  exact (build_log hf hgen s hi).trans (build_log hf hgen t hi).symm

/-! ### One command and one step -/

/-- A command is answered alike in two states that agree on what can be read, and leaves two that do. -/
theorem exec_sameReadable {i : Instr} {s t s' : State} (h : s.sameReadable t) (hs' : exec i s = .next s') :
    ∃ t' r, exec i t = .next t' ∧ s'.sameReadable t' ∧ s'.respPort = s.respPort ++ [r]
      ∧ t'.respPort = t.respPort ++ [r] := by
  cases hi : isCreate i with
  | false =>
    obtain ⟨r, rfl, ht⟩ := exec_respond_congr hi h hs'
    exact ⟨_, r, ht, h, rfl, rfl⟩
  | true =>
    have hceiling : s.tableCeiling = t.tableCeiling := h.2.1
    cases i with
    | create m modulus hint fb =>
      rcases create_congr hceiling hs' with
        ⟨code, rfl, ht⟩ | ⟨f, hm, hf, ⟨rfl, ht⟩ | ⟨g, hg, rfl, ht⟩⟩
      · exact ⟨_, _, ht, h, rfl, rfl⟩
      · exact ⟨_, .ok 0#128, ht, ⟨rfl, hceiling, fun _ => ⟨rfl, rfl, rfl, nofun⟩⟩, rfl, rfl⟩
      · exact ⟨_, .ok 0#128, ht, ⟨rfl, by simpa using hceiling,
          fun _ => ⟨rfl, rfl, rfl, fun _ => ⟨rfl, tableState_sameEntries hm.1 hm.2 hf hg s t⟩⟩⟩, by simp, by simp⟩
    | _ => cases hi

theorem sameReadable_of_sameArchitecture {s t : State} (h : s.sameArchitecture t) : s.sameReadable t := by
  obtain ⟨hv, hm, hmod, hstrat, hgen, hantilog, hlog, hceiling⟩ := h
  exact ⟨hv, hceiling, fun _ => ⟨hm, hmod, hstrat, fun _ =>
    ⟨hgen, fun i _ => by rw [hantilog], fun a _ _ => by rw [hlog]⟩⟩⟩

/-- A command leaves two states that are the same architecture what it was given so (rule R13). -/
theorem exec_sameArchitecture {i : Instr} {s t s' : State} (h : s.sameArchitecture t) (hs' : exec i s = .next s') :
    ∃ t' r, exec i t = .next t' ∧ s'.sameArchitecture t' ∧ s'.respPort = s.respPort ++ [r]
      ∧ t'.respPort = t.respPort ++ [r] := by
  cases hi : isCreate i with
  | false =>
    obtain ⟨r, rfl, ht⟩ := exec_respond_congr hi (sameReadable_of_sameArchitecture h) hs'
    exact ⟨_, r, ht, h, rfl, rfl⟩
  | true =>
    obtain ⟨-, -, -, -, hgen, hantilog, hlog, hceiling⟩ := id h
    cases i with
    | create m modulus hint fb =>
      rcases create_congr hceiling hs' with ⟨code, rfl, ht⟩ | ⟨f, -, -, ⟨rfl, ht⟩ | ⟨g, -, rfl, ht⟩⟩
      · exact ⟨_, _, ht, h, rfl, rfl⟩
      · exact ⟨_, .ok 0#128, ht, ⟨rfl, rfl, rfl, rfl, hgen, hantilog, hlog, hceiling⟩, rfl, rfl⟩
      · obtain ⟨ha, hl⟩ := buildFrom_congr f m g (count := 2 ^ m - 1) (i := 0) (current := 1) hantilog hlog
        exact ⟨_, .ok 0#128, ht, ⟨rfl, rfl, rfl, rfl, rfl, ha, hl, by simpa using hceiling⟩, by simp, by simp⟩
    | _ => cases hi

end Sys2Proof.Machine

namespace Sys2Proof.Proofs

open Sys2Proof Machine

/-- Settles O46: a command reads no more than the architecture, and CREATE writes the same into the same memories. -/
theorem commandsArePureInTheArchitecture : Obligations.CommandsArePureInTheArchitecture :=
  fun _ _ _ _ => exec_sameArchitecture

/-- Settles O47: a context-free command is one piece of pseudocode, which ends without a fault. -/
theorem contextFreeCommandsAnswerAlikeInEveryState : Obligations.ContextFreeCommandsAnswerAlikeInEveryState := by
  intro i hi
  obtain ⟨c, hc⟩ := exists_deliver_of_isContextFree hi
  obtain ⟨t, ht⟩ := exec_next_of_inv i (s := State.reset) (invariantHoldsAfterReset _)
  obtain ⟨r, hr⟩ : ∃ r, ∀ s, deliver s c = .next (s.respond r) := by
    rcases cmd_cases c with ⟨r, rfl⟩ | ⟨code, rfl⟩ | ⟨f, rfl⟩
    · exact ⟨.ok r, fun _ => rfl⟩
    · exact ⟨.err code, fun _ => rfl⟩
    · rw [hc] at ht
      cases ht
  exact ⟨r, fun s => (hc s).trans (hr s)⟩

/-- Settles O50: a reset ends both contexts, and a command reads only what the two states agree on. -/
theorem unspecifiedValuesAreNeverSeen : Obligations.UnspecifiedValuesAreNeverSeen := by
  intro s t s' h hport hresp hs'
  rcases step_cases s with ⟨hp, hk⟩ | ⟨rest, hp, hk⟩ | ⟨p, rest, e, hp, hd, hk⟩ | ⟨p, rest, i, hp, hd, hk⟩ <;>
    rw [hk] at hs' <;> rw [hport] at hp
  · cases hs'
    exact ⟨t, step_of_nil hp, h, hport, hresp⟩
  · cases hs'
    exact ⟨_, step_of_reset hp, ⟨rfl, h.2.1, nofun⟩, rfl, hresp⟩
  · cases hs'
    exact ⟨_, step_of_decode_error hp hd, h, rfl, by simp [hresp]⟩
  · obtain ⟨t', r, ht', hsame, hsr, htr⟩ :=
      exec_sameReadable (s := { s with cmdPort := rest }) (t := { t with cmdPort := rest }) h hs'
    obtain ⟨hsport, -⟩ := exec_next_frame hs'
    obtain ⟨htport, -⟩ := exec_next_frame ht'
    exact ⟨t', (step_of_decode_ok hp hd).trans ht', hsame, hsport.trans htport.symm,
      hsr.trans ((congrArg (· ++ [r]) hresp).trans htr.symm)⟩

end Sys2Proof.Proofs
end
